-- ==== Sys2Proof/Word.lean ====
section
/-! DEFINITION. The value types of the unit: unsigned integers of a stated width (00_scope.md R7). -/

namespace Sys2Proof

/-- `u8`: one input byte, a table index, the `OPC` and `OPD` fields (R5 `BYTE_WIDTH`, R38). -/
abbrev Byte := BitVec 8

/-- `u16`: an Adler sum between updates (R5 `ADLER_ACC_WIDTH`). -/
abbrev Half := BitVec 16

/-- `u17`: an Adler sum before its reduction (41_adler32.md R65). -/
abbrev Sum := BitVec 17

/-- `u32`: the CRC accumulator, a table entry, a response (R5 `CRC_WIDTH`). -/
abbrev Word := BitVec 32

/-- A command word, 16 bits (30_encoding.md R38). -/
abbrev Cmd := BitVec 16

/-- A byte selector of the big-endian form of a result, `0 .. 3` (30_encoding.md R40). -/
abbrev Sel := BitVec 2

end Sys2Proof
end

