-- ==== Sys2Proof/Config.lean ====
section
/-! DEFINITION. What is fixed for the built hardware: the constants of 00_scope.md R5 and the two open
parameters of R6. -/

namespace Sys2Proof

/-- `TABLE_POLICY` (R6): whether the table is empty after reset and filled on demand, or full when reset ends. -/
inductive TablePolicy where
  | lazy
  | eager
deriving DecidableEq, Repr

/-- The two parameters R6 leaves open. -/
structure Config where
  /-- `NCH`, the number of channels. -/
  nch : Nat
  /-- `TABLE_POLICY`. -/
  policy : TablePolicy
deriving DecidableEq, Repr

/-- The defaults of R6: one channel, `lazy`. -/
def Config.default : Config := ⟨1, .lazy⟩

/-- `CRC_POLY` (R5). -/
def crcPoly : Word := 0xEDB88320#32

/-- `CRC_INIT` (R5). -/
def crcInit : Word := 0xFFFFFFFF#32

/-- `CRC_XOROUT` (R5). -/
def crcXorOut : Word := 0xFFFFFFFF#32

/-- `TBL_ENTRIES` (R5). -/
def tblEntries : Nat := 256

/-- `TBL_ITER` (R5). -/
def tblIter : Nat := 8

/-- `ADLER_MOD` (R5), in the width of the unreduced sums (R65). -/
def adlerMod : Sum := 65521#17

/-- `ADLER_S1_INIT` (R5). -/
def adlerS1Init : Half := 1#16

/-- `ADLER_S2_INIT` (R5). -/
def adlerS2Init : Half := 0#16

end Sys2Proof
end

