-- ==== Sys2Proof/Syntax.lean ====
section
/-! DEFINITION. The eleven commands of 30_encoding.md R41. The channel is no part of a command (R49). -/

namespace Sys2Proof

/-- One constructor per row of the opcode map (R41), operands as R40 assembles them. An operand's type has exactly
the values its format admits (R39, R40), so every term is a well-formed command (log 14). -/
inductive Instr where
  /-- `NOP` (42_system.md R69). -/
  | nop
  /-- `STATRD` (42_system.md R70). -/
  | statrd
  /-- `CRCINIT` (40_crc32.md R50). -/
  | crcinit
  /-- `CRCUPD b` (40_crc32.md R51). -/
  | crcupd (b : Byte)
  /-- `CRCGET` (40_crc32.md R52). -/
  | crcget
  /-- `CRCGETB k` (40_crc32.md R53). -/
  | crcgetb (k : Sel)
  /-- `TBLRD v` (40_crc32.md R54). -/
  | tblrd (v : Byte)
  /-- `ADLINIT` (41_adler32.md R60). -/
  | adlinit
  /-- `ADLUPD b` (41_adler32.md R61). -/
  | adlupd (b : Byte)
  /-- `ADLGET` (41_adler32.md R62). -/
  | adlget
  /-- `ADLGETB k` (41_adler32.md R63). -/
  | adlgetb (k : Sel)
deriving DecidableEq, Repr

end Sys2Proof
end

