-- ==== Sys2Proof/WellFormed.lean ====
section
/-! DEFINITION. The checks of a raw command word, written from the prose of 30_encoding.md R39 and R42 (the decoder
is written from the rows of R41 instead), and the check of a configuration (00_scope.md R6). A command that is a term
of `Instr` needs no check (log 14). -/

namespace Sys2Proof

/-- The formats of R39. -/
inductive Format where
  /-- No operand: `OPD` is zero. -/
  | N
  /-- A byte operand. -/
  | B
  /-- A selector operand: `OPD[7:2]` is zero. -/
  | K
deriving DecidableEq, Repr

/-- Why a word is illegal (R42). All reasons have the one effect of 60_exceptions.md R82, and none is recorded
(R82, R84). -/
inductive Illegal where
  /-- `OPC` selects no command. -/
  | unassignedOpcode
  /-- `OPC` is of format `N` and `OPD != 0x00`. -/
  | operandNotZero
  /-- `OPC` is of format `K` and `OPD[7:2] != 0`. -/
  | selectorTooWide
deriving DecidableEq, Repr

/-- The format of each assigned `OPC` (R39, R42); `none` for the others. -/
def formatOfOpcode (opc : Nat) : Option Format :=
  if opc ∈ [0x00, 0x01, 0x10, 0x12, 0x20, 0x22] then some .N
  else if opc ∈ [0x11, 0x14, 0x21] then some .B
  else if opc ∈ [0x13, 0x23] then some .K
  else none

/-- The reason R42 gives for calling the word `w` illegal, `none` when it gives none. Written on the number `w`:
`OPC` is `w / 256`, `OPD` is `w mod 256` (R38). -/
def illegalReason (w : Cmd) : Option Illegal :=
  match formatOfOpcode (w.toNat / 256) with
  | none => some .unassignedOpcode
  | some .N => if w.toNat % 256 = 0 then none else some .operandNotZero
  | some .B => none
  | some .K => if w.toNat % 256 < 4 then none else some .selectorTooWide

/-- `w` is one of the 782 legal words (R41, R42). -/
def legalWord (w : Cmd) : Bool := (illegalReason w).isNone

/-- `NCH >= 1` (00_scope.md R6). -/
def Config.wf (cfg : Config) : Bool := decide (1 ≤ cfg.nch)

end Sys2Proof
end

