-- ==== Sys2Proof/Decode.lean ====
section
/-! DEFINITION. The decoder, from the rows of 30_encoding.md R41, total on every word and rejecting by name (R42);
then the encoder, from the field layout of R38 and the words of R41. -/

namespace Sys2Proof

/-- `OPC = w[15:8]` (R38). -/
def opc (w : Cmd) : Byte := w.extractLsb' 8 8

/-- `OPD = w[7:0]` (R38): the byte `b` or the index `v` of format `B` (R40). -/
def opd (w : Cmd) : Byte := w.extractLsb' 0 8

/-- `k = w[1:0]`: the selector of format `K` (R40). -/
def sel (w : Cmd) : Sel := w.extractLsb' 0 2

/-- One row of the opcode map: the row is selected when `(w & mask) == match` (R41). -/
structure Row where
  mtch : Cmd
  mask : Cmd
  build : Cmd → Instr

/-- The opcode map, command set version 1 (R41). -/
def rows : List Row :=
  [ ⟨0x0000#16, 0xFFFF#16, fun _ => .nop⟩,
    ⟨0x0100#16, 0xFFFF#16, fun _ => .statrd⟩,
    ⟨0x1000#16, 0xFFFF#16, fun _ => .crcinit⟩,
    ⟨0x1100#16, 0xFF00#16, fun w => .crcupd (opd w)⟩,
    ⟨0x1200#16, 0xFFFF#16, fun _ => .crcget⟩,
    ⟨0x1300#16, 0xFFFC#16, fun w => .crcgetb (sel w)⟩,
    ⟨0x1400#16, 0xFF00#16, fun w => .tblrd (opd w)⟩,
    ⟨0x2000#16, 0xFFFF#16, fun _ => .adlinit⟩,
    ⟨0x2100#16, 0xFF00#16, fun w => .adlupd (opd w)⟩,
    ⟨0x2200#16, 0xFFFF#16, fun _ => .adlget⟩,
    ⟨0x2300#16, 0xFFFC#16, fun w => .adlgetb (sel w)⟩ ]

/-- The row a word selects (R41). -/
def Row.selects (r : Row) (w : Cmd) : Bool := (w &&& r.mask) == r.mtch

/-- The name of the reason a word that selects no row is rejected with: `OPC` is looked at first, then the `OPD`
constraint of its format (60_exceptions.md R84). -/
def rejection (w : Cmd) : Illegal :=
  match rows.find? (fun r => opc r.mtch == opc w) with
  | none => .unassignedOpcode
  | some r => if r.mask == 0xFFFC#16 then .selectorTooWide else .operandNotZero

/-- Decoding (R41, R42): the command of the first (and only) row that selects the word, or the reason it is illegal. -/
def decode (w : Cmd) : Except Illegal Instr :=
  match rows.find? (fun r => r.selects w) with
  | some r => .ok (r.build w)
  | none => .error (rejection w)

/-- A word from its two fields (R38). -/
def word (opc opd : Byte) : Cmd := opc ++ opd

/-- `OPD` of format `K`: six zero bits above the selector (R39). -/
def opdOfSel (k : Sel) : Byte := 0#6 ++ k

/-- The one word of a command (R41). -/
def encode : Instr → Cmd
  | .nop => word 0x00#8 0x00#8
  | .statrd => word 0x01#8 0x00#8
  | .crcinit => word 0x10#8 0x00#8
  | .crcupd b => word 0x11#8 b
  | .crcget => word 0x12#8 0x00#8
  | .crcgetb k => word 0x13#8 (opdOfSel k)
  | .tblrd v => word 0x14#8 v
  | .adlinit => word 0x20#8 0x00#8
  | .adlupd b => word 0x21#8 b
  | .adlget => word 0x22#8 0x00#8
  | .adlgetb k => word 0x23#8 (opdOfSel k)

/-- The command word whose bits are `w`, `nbits` of them: a command is one 16-bit number (R38, R45), so there is no
byte order to apply and no later word. DESIGN CHOICE (log 10): the spec has no word of fewer than 16 bits, and one given
with fewer is completed with zero bits above. -/
def wordOfBits (nbits w : Nat) : Cmd := BitVec.ofNat 16 (w % 2 ^ nbits)

/-- What the decoder reads from an instruction whose bits are `w`; nothing is longer than 16 bits (R45). DESIGN CHOICE
(log 10): a word given as fewer than 16 bits is zero-extended and decoded, not rejected. No step uses this. -/
def decodeTableWord (nbits w : Nat) : Option Instr :=
  if nbits ≤ 16 then (decode (wordOfBits nbits w)).toOption else none

end Sys2Proof
end

