-- ==== Sys2Proof/Machine/Memory.lean ====
section
/-! DEFINITION. The one memory of the unit, the CRC table (20_memory.md): what an entry is, how the table is read and
written, and the get-or-fill primitive. The smallest addressable unit is one whole 32-bit entry (R23). -/

namespace Sys2Proof.Machine

open Sys2Proof

/-- One iteration of R25, the test of bit 0 before the shift; `>>` is the logical shift (00_scope.md R7). -/
def entryStep (crc : Word) : Word :=
  if crc &&& 1#32 = 1#32 then crcPoly ^^^ (crc >>> 1) else crc >>> 1

/-- `n` iterations of `entryStep`. -/
def entryLoop : Nat → Word → Word
  | 0, crc => crc
  | n + 1, crc => entryLoop n (entryStep crc)

/-- `Entry(v)` (R25). -/
def entry (v : Byte) : Word := entryLoop tblIter (v.setWidth 32)

/-- The table: the listed indices are those whose `TBL_VALID` is 1, each with its `TBL` entry (10_state.md R18, R19).
An index not listed holds no value (R19), and canonical form is: indices strictly rising, each below 256. -/
abbrev Memory := List (Nat × Word)

/-- `TBL_VALID[v]` and `TBL[v]` together: `some e` when the entry is valid and holds `e`, `none` when it is not. -/
def Memory.read : List (Nat × Word) → Nat → Option Word
  | [], _ => none
  | (a, e) :: m, v => if a = v then some e else Memory.read m v

/-- `MemWrite(v, 4, e)` (00_scope.md R8): stores `e` at index `v` and sets its valid bit. -/
def Memory.write : List (Nat × Word) → Nat → Word → List (Nat × Word)
  | [], v, e => [(v, e)]
  | (a, d) :: m, v, e =>
    if v < a then (v, e) :: (a, d) :: m
    else if v = a then (v, e) :: m
    else (a, d) :: Memory.write m v e

/-- The canonical form: indices strictly rising, none outside the index space `0 .. 255` (R23, R24). -/
abbrev Memory.wf (m : List (Nat × Word)) : Prop :=
  (m.map Prod.fst).Pairwise (· < ·) ∧ ∀ p ∈ m, p.1 < tblEntries

/-- `TblLookup(v)` (R26): the value it returns and the table it leaves. A miss fills exactly the entry asked for and
reads it; a hit writes nothing. -/
def Memory.lookup (m : List (Nat × Word)) (v : Byte) : Word × List (Nat × Word) :=
  match Memory.read m v.toNat with
  | some e => (e, m)
  | none => (entry v, Memory.write m v.toNat (entry v))

/-- The table with every entry valid: what `eager` has when reset ends (70_reset_and_hazards.md R94). -/
def Memory.full : List (Nat × Word) :=
  (List.range tblEntries).map fun v => (v, entry (BitVec.ofNat 8 v))

/-- The table when reset ends (R94). -/
def Memory.atReset : TablePolicy → List (Nat × Word)
  | .lazy => []
  | .eager => Memory.full

end Sys2Proof.Machine
end

