-- ==== Sys2Proof/Machine/State.lean ====
section
/-! DEFINITION. The state (10_state.md) as plain data, the reasons a step can stop, and the state after reset. -/

namespace Sys2Proof.Machine

open Sys2Proof

/-- The registers of one channel (R10). -/
structure Chan where
  /-- `CRC_ACC[c]` (R12). -/
  crcAcc : Word
  /-- `A_S1[c]` (R13). -/
  s1 : Half
  /-- `A_S2[c]` (R14). -/
  s2 : Half
  /-- `ILL[c]` (R16). -/
  ill : Bool
deriving DecidableEq, Repr

/-- Everything the spec calls state of the unit, and nothing else (R22, 60_exceptions.md R91). -/
structure UnitState where
  /-- Channel `c` is element `c` of the list. -/
  chan : List Chan
  /-- `TBL` and `TBL_VALID`, shared by all channels (R18, R19). -/
  tbl : Memory
deriving DecidableEq, Repr

/-- A word presented on a channel's command port (30_encoding.md R38, R49). -/
structure Presented where
  chan : Nat
  word : Cmd
deriving DecidableEq, Repr

/-- A response on a channel's response port (00_scope.md R8, 30_encoding.md R43). -/
structure Response where
  chan : Nat
  data : Word
deriving DecidableEq, Repr

/-- The unit and, beside it, what its ports and its builder fix. Only `unit` is the spec's state (R22). The other
fields are the model's own (DESIGN CHOICE, logs 1 to 5): `step` takes a state and nothing else. -/
structure State where
  /-- `NCH` and `TABLE_POLICY`; no step writes it (log 2). -/
  cfg : Config
  /-- The unit's own state. -/
  unit : UnitState
  /-- The words presented and not yet taken, in the total order of 20_memory.md R33 (logs 1, 9). -/
  pending : List Presented
  /-- The reset input is asserted (70_reset_and_hazards.md R93; log 3). -/
  resetIn : Bool
  /-- The channel whose port the command being executed was presented on (R49; log 5). -/
  port : Nat
  /-- The response of the last step, if it gave one (log 4). -/
  rsp : Option Response
deriving DecidableEq, Repr

/-- The reasons the model stops. The unit has none of its own: `IllegalCommand` is no stop (60_exceptions.md R82). -/
inductive Fault where
  /-- A word stands on a channel number for which the unit has no port (00_scope.md R6, 10_state.md R10). Raised by
  a step that takes such a word, and by a meaning that needs the registers of such a channel. SAFE: the hardware has
  no such behaviour to differ from (log 6). -/
  | noSuchChannel
deriving DecidableEq, Repr

/-- The reasons for which an instruction has no meaning. -/
inductive Refusal where
  /-- Raised only by an arm of `exec` for an instruction with no meaning yet. SAFE. No arm raises it. -/
  | notModelled (mnemonic : String)
deriving DecidableEq, Repr

/-- A channel after reset (R21, 70_reset_and_hazards.md R93). -/
def Chan.atReset : Chan := ⟨crcInit, adlerS1Init, adlerS2Init, false⟩

/-- The unit when reset ends (R21, R93, R94). -/
def UnitState.atReset (cfg : Config) : UnitState :=
  ⟨List.replicate cfg.nch Chan.atReset, Memory.atReset cfg.policy⟩

/-- The machine right after reset, for any configuration; nothing is presented and reset is released (log 11). -/
def State.resetWith (cfg : Config) : State :=
  { cfg := cfg, unit := UnitState.atReset cfg, pending := [], resetIn := false, port := 0, rsp := none }

/-- The machine right after reset, with the defaults of 00_scope.md R6. -/
def State.reset : State := State.resetWith Config.default

end Sys2Proof.Machine
end

