-- ==== Sys2Proof/Machine/Flags.lean ====
section
/-! DEFINITION. The one flag of the unit, `ILL[c]`, and the status word that shows it (10_state.md R16). -/

namespace Sys2Proof.Machine

open Sys2Proof

/-- `STATUS[c] = zext_32(ILL[c])`: bit 0 is the flag, bits 31:1 read as zero (R16). -/
def statusWord (ch : Chan) : Word := if ch.ill then 1#32 else 0#32

/-- The flag set by an illegal word; nothing but reset clears it (R16, 60_exceptions.md R82). -/
def Chan.withIll (ch : Chan) : Chan := { ch with ill := true }

end Sys2Proof.Machine
end

