-- ==== Sys2Proof/Machine/Operands.lean ====
section
/-! DEFINITION. How an operand enters a computation (30_encoding.md R40) and the results and byte order of what is
read (20_memory.md R30, 00_scope.md R9). -/

namespace Sys2Proof.Machine

open Sys2Proof

/-- `zext_32` of a byte (00_scope.md R7). -/
def zext32 (b : Byte) : Word := b.setWidth 32

/-- The table index of an update, `(acc ^ zext_32(b)) & 0xFF`, as a `u8` (40_crc32.md R51). -/
def crcIndex (acc : Word) (b : Byte) : Byte := ((acc ^^^ zext32 b) &&& 0xFF#32).setWidth 8

/-- The CRC-32 result of an accumulator (40_crc32.md R52). -/
def crcResult (acc : Word) : Word := acc ^^^ crcXorOut

/-- `s1 <- (s1 + b) mod 65521`, the sum exact in 17 bits (41_adler32.md R61, R65). -/
def adlerS1 (s1 : Half) (b : Byte) : Half := ((s1.setWidth 17 + b.setWidth 17) % adlerMod).setWidth 16

/-- `s2 <- (s2 + n1) mod 65521` with the new `s1`, the sum exact in 17 bits (R61, R65). -/
def adlerS2 (s2 n1 : Half) : Half := ((s2.setWidth 17 + n1.setWidth 17) % adlerMod).setWidth 16

/-- The Adler-32 result, `(s2 << 16) | s1` (41_adler32.md R62). -/
def adlerResult (s1 s2 : Half) : Word := (s2.setWidth 32 <<< 16) ||| s1.setWidth 32

/-- `BE4(r)`: the four bytes of a result, most significant first (00_scope.md R9). -/
def be4 (r : Word) : List Byte :=
  [r.extractLsb' 24 8, r.extractLsb' 16 8, r.extractLsb' 8 8, r.extractLsb' 0 8]

/-- `BE4(r)[k]` (R9): `k = 0` is the most significant byte. -/
def be4At (r : Word) (k : Sel) : Byte :=
  if k = 0#2 then r.extractLsb' 24 8
  else if k = 1#2 then r.extractLsb' 16 8
  else if k = 2#2 then r.extractLsb' 8 8
  else r.extractLsb' 0 8

end Sys2Proof.Machine
end

