-- ==== Sys2Proof/Machine/Ops.lean ====
section
/-! DEFINITION. The named operations over channels, table and ports that the meanings are written with, and the one
exception, `IllegalCommand` (60_exceptions.md R82). There is no return from an exception (R87). -/

namespace Sys2Proof.Machine

open Sys2Proof

/-- The registers of the channel the command was presented on (30_encoding.md R49); `none` if there is no such port. -/
def State.selected (s : State) : Option Chan := s.unit.chan[s.port]?

/-- The registers of that channel replaced by `ch`. -/
def State.setChan (s : State) (ch : Chan) : State :=
  { s with unit := { s.unit with chan := s.unit.chan.set s.port ch } }

/-- The shared table replaced by `m`. -/
def State.setTbl (s : State) (m : Memory) : State := { s with unit := { s.unit with tbl := m } }

/-- `rsp <- v` (00_scope.md R8): `v` is the command's response, on the issuing channel's response port. -/
def State.respond (s : State) (v : Word) : State := { s with rsp := some ⟨s.port, v⟩ }

/-- The command gives no response (R8, 30_encoding.md R43). -/
def State.silent (s : State) : State := { s with rsp := none }

/-- Continue with the registers of the issuing channel; there is nothing to continue with where it does not exist
(log 6). -/
def onSelected (s : State) (f : Chan → State) : Host.Outcome State Fault Refusal :=
  match s.selected with
  | some ch => .next (f ch)
  | none => .fault .noSuchChannel

/-- `raise IllegalCommand(w)` on the issuing channel: `ILL[c] <- 1`, no response, nothing else; the word is not
recorded (R82). -/
def raiseIllegalCommand (s : State) : Host.Outcome State Fault Refusal :=
  onSelected s fun ch => (s.setChan ch.withIll).silent

end Sys2Proof.Machine
end

