-- ==== Sys2Proof/Machine/Adler.lean ====
section
/-! DEFINITION. The Adler-32 commands (41_adler32.md). -/

namespace Sys2Proof.Machine

open Sys2Proof

/-- `ADLINIT` (R60). -/
def execAdlinit (s : State) : Host.Outcome State Fault Refusal :=
  onSelected s fun ch => (s.setChan { ch with s1 := adlerS1Init, s2 := adlerS2Init }).silent

/-- `ADLUPD b` (R61): `s1` first, and `s2` adds the new `s1`. -/
def execAdlupd (b : Byte) (s : State) : Host.Outcome State Fault Refusal :=
  onSelected s fun ch =>
    let n1 := adlerS1 ch.s1 b
    (s.setChan { ch with s1 := n1, s2 := adlerS2 ch.s2 n1 }).silent

/-- `ADLGET` (R62). -/
def execAdlget (s : State) : Host.Outcome State Fault Refusal :=
  onSelected s fun ch => s.respond (adlerResult ch.s1 ch.s2)

/-- `ADLGETB k` (R63). -/
def execAdlgetb (k : Sel) (s : State) : Host.Outcome State Fault Refusal :=
  onSelected s fun ch => s.respond (zext32 (be4At (adlerResult ch.s1 ch.s2) k))

end Sys2Proof.Machine
end

