-- ==== Sys2Proof/Machine/Crc.lean ====
section
/-! DEFINITION. The CRC-32 commands (40_crc32.md). -/

namespace Sys2Proof.Machine

open Sys2Proof

/-- `CRCINIT` (R50). -/
def execCrcinit (s : State) : Host.Outcome State Fault Refusal :=
  onSelected s fun ch => (s.setChan { ch with crcAcc := crcInit }).silent

/-- `CRCUPD b` (R51): both uses of the accumulator are the value before the command. -/
def execCrcupd (b : Byte) (s : State) : Host.Outcome State Fault Refusal :=
  onSelected s fun ch =>
    let r := Memory.lookup s.unit.tbl (crcIndex ch.crcAcc b)
    ((s.setTbl r.2).setChan { ch with crcAcc := r.1 ^^^ (ch.crcAcc >>> 8) }).silent

/-- `CRCGET` (R52). -/
def execCrcget (s : State) : Host.Outcome State Fault Refusal :=
  onSelected s fun ch => s.respond (crcResult ch.crcAcc)

/-- `CRCGETB k` (R53). -/
def execCrcgetb (k : Sel) (s : State) : Host.Outcome State Fault Refusal :=
  onSelected s fun ch => s.respond (zext32 (be4At (crcResult ch.crcAcc) k))

/-- `TBLRD v` (R54): a demand like any other; touches no channel's registers. -/
def execTblrd (v : Byte) (s : State) : Host.Outcome State Fault Refusal :=
  let r := Memory.lookup s.unit.tbl v
  .next ((s.setTbl r.2).respond r.1)

end Sys2Proof.Machine
end

