-- ==== Sys2Proof/Machine/System.lean ====
section
/-! DEFINITION. The system commands (42_system.md). -/

namespace Sys2Proof.Machine

open Sys2Proof

/-- `NOP` (R69): no effect, no response. -/
def execNop (s : State) : Host.Outcome State Fault Refusal := .next s.silent

/-- `STATRD` (R70): responds the status word of the channel; clears nothing. -/
def execStatrd (s : State) : Host.Outcome State Fault Refusal :=
  onSelected s fun ch => s.respond (statusWord ch)

end Sys2Proof.Machine
end

