-- ==== Sys2Proof/Machine/Dispatch.lean ====
section
/-! DEFINITION. One arm per command (30_encoding.md R41). -/

namespace Sys2Proof.Machine

open Sys2Proof

/-- The effect of a decoded command presented on channel `s.port`. -/
def exec (i : Instr) (s : State) : Host.Outcome State Fault Refusal :=
  match i with
  | .nop => Sys2Proof.Machine.execNop s
  | .statrd => Sys2Proof.Machine.execStatrd s
  | .crcinit => Sys2Proof.Machine.execCrcinit s
  | .crcupd b => Sys2Proof.Machine.execCrcupd b s
  | .crcget => Sys2Proof.Machine.execCrcget s
  | .crcgetb k => Sys2Proof.Machine.execCrcgetb k s
  | .tblrd v => Sys2Proof.Machine.execTblrd v s
  | .adlinit => Sys2Proof.Machine.execAdlinit s
  | .adlupd b => Sys2Proof.Machine.execAdlupd b s
  | .adlget => Sys2Proof.Machine.execAdlget s
  | .adlgetb k => Sys2Proof.Machine.execAdlgetb k s

end Sys2Proof.Machine
end

