-- ==== Sys2Proof/Machine/Ports.lean ====
section
/-! DEFINITION. The command ports and the reset input (10_state.md R10, 70_reset_and_hazards.md R93): what a host and
the platform do between steps, and what a step does at the ports. -/

namespace Sys2Proof.Machine

open Sys2Proof

/-- The host of channel `c` presents the word `w` (43_call_protocol.md R79): it comes after every word presented
before it (20_memory.md R34). -/
def State.present (s : State) (c : Nat) (w : Cmd) : State := { s with pending := s.pending ++ [⟨c, w⟩] }

/-- The platform asserts reset (R93). -/
def State.assertReset (s : State) : State := { s with resetIn := true }

/-- The reset step (R93): whatever the state was, the unit is as reset leaves it; the words presented and not yet
taken are lost, and so is a response not yet read (R95). Reset is then released (log 3). -/
def State.takeReset (s : State) : State :=
  { s with unit := UnitState.atReset s.cfg, pending := [], resetIn := false, port := 0, rsp := none }

/-- Nothing is presented: the unit does nothing (R96). -/
def State.idle (s : State) : State := { s with rsp := none }

/-- The step takes the presented word: `rest` is still pending, and the command acts on channel `c` (30_encoding.md
R49). -/
def State.accept (s : State) (c : Nat) (rest : List Presented) : State :=
  { s with pending := rest, port := c, rsp := none }

/-- There is a port for channel `c` (R10). -/
def State.hasChannel (s : State) (c : Nat) : Bool := decide (c < s.unit.chan.length)

/-- `w` is presented on channel 0 before every pending word, and reset is not asserted: the very next step takes it
(log 10). -/
def State.presentFirst (s : State) (w : Cmd) : State :=
  { s with pending := ⟨0, w⟩ :: s.pending, resetIn := false }

end Sys2Proof.Machine
end

