-- ==== Sys2Proof/Machine/Issue.lean ====
section
/-! DEFINITION. Taking one presented word: decode it, execute it or raise `IllegalCommand`, as one atomic step
(20_memory.md R33). -/

namespace Sys2Proof.Machine

open Sys2Proof

/-- A word that has just been taken, `s.port` being its channel (30_encoding.md R42). -/
def runWord (w : Cmd) (s : State) : Host.Outcome State Fault Refusal :=
  match decode w with
  | .ok i => exec i s
  | .error _ => raiseIllegalCommand s

/-- The first pending word `p`, `rest` being those behind it. -/
def issue (p : Presented) (rest : List Presented) (s : State) : Host.Outcome State Fault Refusal :=
  if s.hasChannel p.chan then runWord p.word (s.accept p.chan rest) else .fault .noSuchChannel

/-- One step: reset before everything (60_exceptions.md R84), then the first pending word, else nothing. -/
def oneStep (s : State) : Host.Outcome State Fault Refusal :=
  if s.resetIn then .next s.takeReset
  else
    match s.pending with
    | [] => .next s.idle
    | p :: rest => issue p rest s

end Sys2Proof.Machine
end

