-- ==== Sys2Proof/Machine/Step.lean ====
section
/-! DEFINITION. The step of the machine, and placing a word where the next step takes it. -/

namespace Sys2Proof.Machine

open Sys2Proof

/-- One atomic step (20_memory.md R33). -/
def step (s : State) : Host.Outcome State Fault Refusal := oneStep s

/-- The command word whose bits are `w` placed so that the next step takes it (log 10). -/
def State.withFetchWord (s : State) (nbits w : Nat) : State := s.presentFirst (wordOfBits nbits w)

end Sys2Proof.Machine
end

