-- ==== Sys2Proof/Machine/Assembler.lean ====
section
/-! DEFINITION. The pseudo-instructions (30_encoding.md R47, R48) and the assembler syntax (R46). -/

namespace Sys2Proof.Machine

open Sys2Proof

/-- The pseudo-instructions. -/
inductive Pseudo where
  | crc32 (bs : List Byte)
  | adler32 (bs : List Byte)
  | crcfeed (bs : List Byte)
  | adlfeed (bs : List Byte)
  | emitcrc
  | emitadl
deriving DecidableEq, Repr

/-- What each expands to (R47, R48). -/
def Pseudo.expand : Pseudo → List Instr
  | .crc32 bs => .crcinit :: (bs.map .crcupd ++ [.crcget])
  | .adler32 bs => .adlinit :: (bs.map .adlupd ++ [.adlget])
  | .crcfeed bs => bs.map .crcupd
  | .adlfeed bs => bs.map .adlupd
  | .emitcrc => [.crcgetb 0#2, .crcgetb 1#2, .crcgetb 2#2, .crcgetb 3#2]
  | .emitadl => [.adlgetb 0#2, .adlgetb 1#2, .adlgetb 2#2, .adlgetb 3#2]

/-- Commands as words presented on channel `c`. -/
def presentedOn (c : Nat) (is : List Instr) : List Presented := is.map fun i => ⟨c, encode i⟩

/-- An operand as written (R46, R47). -/
inductive AsmOperand where
  /-- A decimal or hexadecimal number. -/
  | num (n : Nat)
  /-- One ASCII character in single quotes. -/
  | chr (n : Nat)
  /-- A double-quoted ASCII string. -/
  | str (ns : List Nat)
deriving DecidableEq, Repr

/-- The value of a hexadecimal digit. -/
def hexValue (c : Char) : Option Nat :=
  if '0' ≤ c ∧ c ≤ '9' then some (c.toNat - 48)
  else if 'A' ≤ c ∧ c ≤ 'F' then some (c.toNat - 55)
  else if 'a' ≤ c ∧ c ≤ 'f' then some (c.toNat - 87)
  else none

/-- The value of a decimal digit. -/
def decValue (c : Char) : Option Nat := if '0' ≤ c ∧ c ≤ '9' then some (c.toNat - 48) else none

/-- The longest run of digits in base `base` continuing the number `acc`, and what follows it. -/
def digits (value : Char → Option Nat) (base : Nat) : Nat → List Char → Nat × List Char
  | acc, [] => (acc, [])
  | acc, c :: cs =>
    match value c with
    | some d => digits value base (acc * base + d) cs
    | none => (acc, c :: cs)

/-- The characters up to the closing double quote, and what follows it. -/
def quoted : List Char → Option (List Nat × List Char)
  | [] => none
  | c :: cs =>
    if c = '"' then some ([], cs)
    else if c.toNat < 128 then (quoted cs).map fun p => (c.toNat :: p.1, p.2)
    else none

/-- The text without its leading spaces. -/
def skipSpaces (cs : List Char) : List Char := cs.dropWhile (· == ' ')

/-- Nothing but a comment is left on the line: a comment runs from `;` to the end of the line (R46). -/
def atEnd : List Char → Bool
  | [] => true
  | c :: _ => c == ';'

/-- One operand at the head of the text (R46; log 15). -/
def operandAt : List Char → Option (AsmOperand × List Char)
  | [] => none
  | '\'' :: c :: '\'' :: cs => if c.toNat < 128 then some (.chr c.toNat, cs) else none
  | '"' :: cs => (quoted cs).map fun p => (.str p.1, p.2)
  | '0' :: 'x' :: c :: cs =>
    (hexValue c).map fun d => let p := digits hexValue 16 d cs; (.num p.1, p.2)
  | c :: cs => (decValue c).map fun d => let p := digits decValue 10 d cs; (.num p.1, p.2)

/-- The operands, separated by commas; the first argument bounds their number. -/
def operandsAt : Nat → List Char → Option (List AsmOperand)
  | 0, _ => none
  | n + 1, cs =>
    match operandAt (skipSpaces cs) with
    | none => none
    | some (o, rest) =>
      match skipSpaces rest with
      | ',' :: more => (operandsAt n more).map (o :: ·)
      | more => if atEnd more then some [o] else none

/-- The operand of format `B`; a character only where R46 allows one. -/
def byteOperand (allowChar : Bool) : List AsmOperand → Option Byte
  | [.num n] => if n < 256 then some (BitVec.ofNat 8 n) else none
  | [.chr n] => if allowChar && decide (n < 256) then some (BitVec.ofNat 8 n) else none
  | _ => none

/-- The operand of format `K`. -/
def selOperand : List AsmOperand → Option Sel
  | [.num n] => if n < 4 then some (BitVec.ofNat 2 n) else none
  | _ => none

/-- The numbers among the operands of a pseudo-instruction, all of them bytes. -/
def byteNumbers : List AsmOperand → Option (List Byte)
  | [] => some []
  | .num n :: os => if n < 256 then (byteNumbers os).map (BitVec.ofNat 8 n :: ·) else none
  | _ :: _ => none

/-- The bytes of a pseudo-instruction: numbers, or one double-quoted string (R47). -/
def byteOperands : List AsmOperand → Option (List Byte)
  | [.str ns] => some (ns.map (BitVec.ofNat 8))
  | os => byteNumbers os

/-- `w` when there is no operand. -/
def noOperand (i : Instr) (os : List AsmOperand) : Option (List Cmd) := if os = [] then some [encode i] else none

/-- The words of a mnemonic and its operands. `.word` is the directive of the listings of 95_test_vectors.md section 7
(log 15). -/
def wordsOf (m : List Char) (os : List AsmOperand) : Option (List Cmd) :=
  if m = "NOP".toList then noOperand .nop os
  else if m = "STATRD".toList then noOperand .statrd os
  else if m = "CRCINIT".toList then noOperand .crcinit os
  else if m = "CRCUPD".toList then (byteOperand true os).map fun b => [encode (.crcupd b)]
  else if m = "CRCGET".toList then noOperand .crcget os
  else if m = "CRCGETB".toList then (selOperand os).map fun k => [encode (.crcgetb k)]
  else if m = "TBLRD".toList then (byteOperand false os).map fun v => [encode (.tblrd v)]
  else if m = "ADLINIT".toList then noOperand .adlinit os
  else if m = "ADLUPD".toList then (byteOperand true os).map fun b => [encode (.adlupd b)]
  else if m = "ADLGET".toList then noOperand .adlget os
  else if m = "ADLGETB".toList then (selOperand os).map fun k => [encode (.adlgetb k)]
  else if m = "CRC32".toList then (byteOperands os).map fun bs => (Pseudo.crc32 bs).expand.map encode
  else if m = "ADLER32".toList then (byteOperands os).map fun bs => (Pseudo.adler32 bs).expand.map encode
  else if m = "CRCFEED".toList then (byteOperands os).map fun bs => (Pseudo.crcfeed bs).expand.map encode
  else if m = "ADLFEED".toList then (byteOperands os).map fun bs => (Pseudo.adlfeed bs).expand.map encode
  else if m = "EMITCRC".toList then (if os = [] then some (Pseudo.emitcrc.expand.map encode) else none)
  else if m = "EMITADL".toList then (if os = [] then some (Pseudo.emitadl.expand.map encode) else none)
  else if m = ".word".toList then
    match os with
    | [.num n] => if n < 65536 then some [BitVec.ofNat 16 n] else none
    | _ => none
  else none

/-- The prefix `ch<c>:` and what follows it; without a prefix the channel is 0 (R46). -/
def channelPrefix (cs : List Char) : Option (Nat × List Char) :=
  match cs with
  | 'c' :: 'h' :: d :: rest =>
    match decValue d with
    | none => none
    | some n =>
      match digits decValue 10 n rest with
      | (c, ':' :: more) => some (c, more)
      | _ => none
  | _ => some (0, cs)

/-- The characters of a mnemonic: capitals and digits, and those of `.word`. -/
def mnemonicChar (c : Char) : Bool := c.isUpper || c.isDigit || c == '.' || c.isLower

/-- One line of a listing (R46): the channel and its words; a blank or comment line gives no word. -/
def assembleLine (line : List Char) : Option (Nat × List Cmd) :=
  match channelPrefix (skipSpaces line) with
  | none => none
  | some (c, text) =>
    let text := skipSpaces text
    if atEnd text then some (c, [])
    else
      let m := text.takeWhile mnemonicChar
      let rest := text.dropWhile mnemonicChar
      if atEnd (skipSpaces rest) then (wordsOf m []).map fun ws => (c, ws)
      else if rest.head? = some ' ' then
        (operandsAt rest.length rest).bind fun os => (wordsOf m os).map fun ws => (c, ws)
      else none

/-- A listing: the textual order of its lines is the total order (R46). -/
def assemble : List (List Char) → Option (List Presented)
  | [] => some []
  | line :: lines =>
    match assembleLine line, assemble lines with
    | some (c, ws), some ps => some (ws.map (fun w => ⟨c, w⟩) ++ ps)
    | _, _ => none

/-- A hexadecimal digit as the listings write it. -/
def hexChar (n : Nat) : Char := if n < 10 then Char.ofNat (48 + n) else Char.ofNat (55 + n)

/-- A byte as `0x` and two digits. -/
def hexByte (b : Byte) : List Char := ['0', 'x', hexChar (b.toNat / 16), hexChar (b.toNat % 16)]

/-- A command in assembler syntax (R46): mnemonic in capitals, one operand after a space. -/
def render : Instr → List Char
  | .nop => "NOP".toList
  | .statrd => "STATRD".toList
  | .crcinit => "CRCINIT".toList
  | .crcupd b => "CRCUPD ".toList ++ hexByte b
  | .crcget => "CRCGET".toList
  | .crcgetb k => "CRCGETB ".toList ++ [hexChar k.toNat]
  | .tblrd v => "TBLRD ".toList ++ hexByte v
  | .adlinit => "ADLINIT".toList
  | .adlupd b => "ADLUPD ".toList ++ hexByte b
  | .adlget => "ADLGET".toList
  | .adlgetb k => "ADLGETB ".toList ++ [hexChar k.toNat]

end Sys2Proof.Machine
end

