-- ==== Sys2Proof/Machine/Reference.lean ====
section
/-! DEFINITION. The pure functions the rules define beside the commands: the state functions of the two engines
(40_crc32.md R55, R57; 41_adler32.md R67, R68), the two checksums (43_call_protocol.md R71, R72), and what one channel
does when every table lookup is replaced by `Entry` (20_memory.md R27). No step uses them. -/

namespace Sys2Proof.Machine

open Sys2Proof

/-- `CrcStep(a, b)` (R55). -/
def crcStep (a : Word) (b : Byte) : Word := entry (crcIndex a b) ^^^ (a >>> 8)

/-- `CrcFold(a, bytes)` (R55). -/
def crcFold (a : Word) (bs : List Byte) : Word := bs.foldl crcStep a

/-- The bit-serial form of the update (R57): XOR the byte into the low bits, then eight clocks. -/
def crcStepSerial (a : Word) (b : Byte) : Word := entryLoop 8 (a ^^^ zext32 b)

/-- `crc32(bytes)` (R71). -/
def crc32 (bs : List Byte) : Word := crcFold 0xFFFFFFFF#32 bs ^^^ 0xFFFFFFFF#32

/-- `AdlStep((s1, s2), b)` (R68). -/
def adlStep (p : Half × Half) (b : Byte) : Half × Half := (adlerS1 p.1 b, adlerS2 p.2 (adlerS1 p.1 b))

/-- `AdlFold(s, bytes)` (R68). -/
def adlFold (p : Half × Half) (bs : List Byte) : Half × Half := bs.foldl adlStep p

/-- `adler32(bytes)` (R72). -/
def adler32 (bs : List Byte) : Word :=
  adlerResult (adlFold (1#16, 0#16) bs).1 (adlFold (1#16, 0#16) bs).2

/-- `b0 + b1 + ... + b(n-1)`, exact (R67). -/
def byteSum : List Byte → Nat
  | [] => 0
  | b :: bs => b.toNat + byteSum bs

/-- `n*b0 + (n-1)*b1 + ... + 1*b(n-1)`, exact (R67). -/
def weightedByteSum : List Byte → Nat
  | [] => 0
  | b :: bs => (bs.length + 1) * b.toNat + weightedByteSum bs

/-- One command on one channel with every `TblLookup(v)` replaced by `Entry(v)` (R27): the registers after it and
the response. -/
def chanExec (ch : Chan) : Instr → Chan × Option Word
  | .nop => (ch, none)
  | .statrd => (ch, some (statusWord ch))
  | .crcinit => ({ ch with crcAcc := 0xFFFFFFFF#32 }, none)
  | .crcupd b => ({ ch with crcAcc := crcStep ch.crcAcc b }, none)
  | .crcget => (ch, some (crcResult ch.crcAcc))
  | .crcgetb k => (ch, some (zext32 (be4At (crcResult ch.crcAcc) k)))
  | .tblrd v => (ch, some (entry v))
  | .adlinit => ({ ch with s1 := 1#16, s2 := 0#16 }, none)
  | .adlupd b => ({ ch with s1 := (adlStep (ch.s1, ch.s2) b).1, s2 := (adlStep (ch.s1, ch.s2) b).2 }, none)
  | .adlget => (ch, some (adlerResult ch.s1 ch.s2))
  | .adlgetb k => (ch, some (zext32 (be4At (adlerResult ch.s1 ch.s2) k)))

/-- One word on one channel: its command, or the effect of an illegal word (60_exceptions.md R82). -/
def chanWord (ch : Chan) (w : Cmd) : Chan × Option Word :=
  match decode w with
  | .ok i => chanExec ch i
  | .error _ => (ch.withIll, none)

/-- A sequence of words on one channel: the responses in order, and the registers at the end. -/
def chanRun : Chan → List Cmd → List Word × Chan
  | ch, [] => ([], ch)
  | ch, w :: ws => ((chanWord ch w).2.toList ++ (chanRun (chanWord ch w).1 ws).1, (chanRun (chanWord ch w).1 ws).2)

/-- The word's command writes `CRC_ACC` (10_state.md R12). -/
def writesCrc (w : Cmd) : Bool :=
  match decode w with
  | .ok .crcinit => true
  | .ok (.crcupd _) => true
  | _ => false

/-- The word's command writes `A_S1` and `A_S2` (R13, R14). -/
def writesAdler (w : Cmd) : Bool :=
  match decode w with
  | .ok .adlinit => true
  | .ok (.adlupd _) => true
  | _ => false

/-- The commands that give a response (30_encoding.md R43). -/
def responds : Instr → Bool
  | .statrd => true
  | .crcget => true
  | .crcgetb _ => true
  | .tblrd _ => true
  | .adlget => true
  | .adlgetb _ => true
  | .nop => false
  | .crcinit => false
  | .crcupd _ => false
  | .adlinit => false
  | .adlupd _ => false

end Sys2Proof.Machine
end

