-- ==== Sys2Proof/Machine/HostSide.lean ====
section
/-! DEFINITION. What the surrounding system feeds the unit and how it emits the results (43_call_protocol.md R76 to
R78): the host's side of the interface, in scope by 00_scope.md R3(g). No step uses it. -/

namespace Sys2Proof.Machine

open Sys2Proof

/-- The three chunk types (R76). -/
inductive ChunkType where
  | IHDR
  | IDAT
  | IEND
deriving DecidableEq, Repr

/-- The four ASCII type bytes (PRESUMED: 93_implementation_defined.md G5; log 16). -/
def ChunkType.bytes : ChunkType → List Byte
  | .IHDR => [0x49#8, 0x48#8, 0x44#8, 0x52#8]
  | .IDAT => [0x49#8, 0x44#8, 0x41#8, 0x54#8]
  | .IEND => [0x49#8, 0x45#8, 0x4E#8, 0x44#8]

/-- What the CRC-32 of a chunk of type `t` with these data bytes covers: the type bytes, then the data bytes; never the
length (R76). Which data a type has is said by `Chunk` below. -/
def chunkCovered (t : ChunkType) (data : List Byte) : List Byte := t.bytes ++ data

/-- The commands of one chunk: one CRC-32 call over what is covered, its result read in emission order (R76, R77). -/
def chunkCommands (t : ChunkType) (data : List Byte) : List Instr :=
  .crcinit :: ((Pseudo.crcfeed (chunkCovered t data)).expand ++ Pseudo.emitcrc.expand)

/-- A pixel, `[R, G, B]` (R78). -/
structure Pixel where
  r : Byte
  g : Byte
  b : Byte
deriving DecidableEq, Repr

/-- The three bytes of a pixel. -/
def Pixel.bytes (p : Pixel) : List Byte := [p.r, p.g, p.b]

/-- One row of the filtered image data: the filter-type tag `0x00`, then the row's pixels (R78). -/
def filteredRow (row : List Pixel) : List Byte := 0x00#8 :: row.flatMap Pixel.bytes

/-- The filtered image data: all rows, top to bottom (R78). -/
def filteredImage (rows : List (List Pixel)) : List Byte := rows.flatMap filteredRow

/-- The commands of one image: one Adler-32 call over the filtered image data, its result read in emission order
(R78). -/
def imageCommands (rows : List (List Pixel)) : List Instr :=
  .adlinit :: ((Pseudo.adlfeed (filteredImage rows)).expand ++ Pseudo.emitadl.expand)

/-- The zlib envelope (R76, R78): two header bytes and the compressed bytes, all of the host's choosing
(00_scope.md R4(d), R4(e), 93_implementation_defined.md U11; log 19), and the image they are of. -/
structure ZlibEnvelope where
  cmf : Byte
  flg : Byte
  compressed : List Byte
  image : List (List Pixel)
deriving DecidableEq, Repr

/-- The Adler-32 trailer: the big-endian Adler-32 of the uncompressed filtered image data (R78). -/
def ZlibEnvelope.trailer (z : ZlibEnvelope) : List Byte := be4 (adler32 (filteredImage z.image))

/-- The bytes of the envelope: the trailer stands directly after the compressed bytes, as the last four (R78). -/
def ZlibEnvelope.bytes (z : ZlibEnvelope) : List Byte := z.cmf :: z.flg :: (z.compressed ++ z.trailer)

/-- A chunk of the surrounding system, with the data its type has (R76). -/
inductive Chunk where
  /-- `IHDR`: 13 data bytes, any (log 19). -/
  | ihdr (fields : Vector Byte 13)
  /-- `IDAT`: the whole zlib envelope, its Adler-32 trailer included. -/
  | idat (z : ZlibEnvelope)
  /-- `IEND`: no data. -/
  | iend
deriving DecidableEq, Repr

/-- The type of a chunk. -/
def Chunk.type : Chunk → ChunkType
  | .ihdr _ => .IHDR
  | .idat _ => .IDAT
  | .iend => .IEND

/-- The data bytes of a chunk, in file order (R76, R78). -/
def Chunk.data : Chunk → List Byte
  | .ihdr fields => fields.toList
  | .idat z => z.bytes
  | .iend => []

/-- What the chunk's CRC-32 covers (R76). -/
def Chunk.covered (k : Chunk) : List Byte := chunkCovered k.type k.data

/-- The commands of the chunk's CRC-32 and its emission (R76, R77). -/
def Chunk.commands (k : Chunk) : List Instr := chunkCommands k.type k.data

/-- What the host writes after the chunk's four length bytes: what is covered, then its big-endian CRC-32, directly
after the data (R76, R77). -/
def Chunk.writtenAfterLength (k : Chunk) : List Byte := k.covered ++ be4 (crc32 k.covered)

end Sys2Proof.Machine
end

