-- ==== Sys2Proof/Safety.lean ====
section
/-! DEFINITION. The terms the statements use: what stays unchanged, runs and their responses, the invariant, the
reachable states, and a run in which nothing went wrong. -/

namespace Sys2Proof.Machine

open Sys2Proof

/-- The registers of channel `c`; `none` when there is no such channel. -/
def State.chanAt (s : State) (c : Nat) : Option Chan := s.unit.chan[c]?

/-- Table index `v`: `some e` when `TBL_VALID[v]` is 1 and `TBL[v]` is `e`, `none` when it is 0. -/
def State.entryAt (s : State) (v : Nat) : Option Word := Memory.read s.unit.tbl v

/-- No channel but the one the command was presented on has changed. -/
abbrev OtherChannelsSame (s t : State) : Prop := ∀ c, c ≠ s.port → t.chanAt c = s.chanAt c

/-- No table entry and no valid bit has changed. -/
abbrev TableSame (s t : State) : Prop := ∀ v, t.entryAt v = s.entryAt v

/-- The effect of `TblLookup(v)` on the table (20_memory.md R26): an entry that was valid is unchanged, entry `v` if it
was not valid is filled with `Entry(v)`, and no other entry changes. -/
abbrev FillsOnDemand (s t : State) (v : Byte) : Prop :=
  (∀ u, u ≠ v.toNat → t.entryAt u = s.entryAt u) ∧
    (∀ e, s.entryAt v.toNat = some e → t.entryAt v.toNat = some e) ∧
    (s.entryAt v.toNat = none → t.entryAt v.toNat = some (entry v))

/-- What stands beside the unit, but for the response, has not changed. -/
abbrev OutsideSame (s t : State) : Prop :=
  t.cfg = s.cfg ∧ t.pending = s.pending ∧ t.resetIn = s.resetIn ∧ t.port = s.port

/-- `k` steps: the responses in order, and the state at the end; `none` if the model stops. -/
def runTrace : Nat → State → Option (List Response × State)
  | 0, s => some ([], s)
  | k + 1, s =>
    match step s with
    | .next t => (runTrace k t).map fun p => (t.rsp.toList ++ p.1, p.2)
    | .fault _ => none
    | .refused _ => none

/-- The words of a schedule that were presented on channel `c`, in order. -/
def wordsOn (c : Nat) (ps : List Presented) : List Cmd := (ps.filter fun p => p.chan == c).map (·.word)

/-- The responses on channel `c`, in order. -/
def responsesOn (c : Nat) (rs : List Response) : List Word := (rs.filter fun r => r.chan == c).map (·.data)

/-- The configuration is legal and there are `NCH` channels (00_scope.md R6, 10_state.md R10). -/
abbrev State.ConfigOk (s : State) : Prop := 1 ≤ s.cfg.nch ∧ s.unit.chan.length = s.cfg.nch

/-- The range of the Adler registers (10_state.md R15). -/
abbrev State.AdlerOk (s : State) : Prop := ∀ ch ∈ s.unit.chan, ch.s1.toNat ≤ 65520 ∧ ch.s2.toNat ≤ 65520

/-- Canonical form; every valid entry is `Entry` of its index (10_state.md R20); under `eager` all are valid
(20_memory.md R27). -/
abbrev State.TableOk (s : State) : Prop :=
  Memory.wf s.unit.tbl ∧ (∀ p ∈ s.unit.tbl, p.2 = entry (BitVec.ofNat 8 p.1)) ∧
    (s.cfg.policy = .eager → s.unit.tbl = Memory.full)

/-- Every word and response is on a port the unit has (10_state.md R10). -/
abbrev State.PortsOk (s : State) : Prop :=
  (∀ p ∈ s.pending, p.chan < s.cfg.nch) ∧ s.port < s.cfg.nch ∧ ∀ r ∈ s.rsp.toList, r.chan < s.cfg.nch

/-- The invariant of the model. -/
abbrev State.Inv (s : State) : Prop := s.ConfigOk ∧ s.AdlerOk ∧ s.TableOk ∧ s.PortsOk

/-- The states the machine can be in: from reset, by steps, by hosts presenting words on the ports there are, and by
the platform asserting reset at any time (43_call_protocol.md R79, 70_reset_and_hazards.md R93). -/
inductive Reachable : State → Prop where
  | start (cfg : Config) (h : cfg.wf = true) : Reachable (State.resetWith cfg)
  | stepped {s t : State} (hs : Reachable s) (h : step s = .next t) : Reachable t
  | presented {s : State} (hs : Reachable s) (c : Nat) (w : Cmd) (h : c < s.cfg.nch) : Reachable (s.present c w)
  | resetAsserted {s : State} (hs : Reachable s) : Reachable s.assertReset

/-- Nothing went wrong on channel `c` since reset (60_exceptions.md R83). -/
def State.NothingWrong (s : State) (c : Nat) : Prop := (s.chanAt c).map (·.ill) = some false

end Sys2Proof.Machine
end

