-- ==== Sys2Proof/Certificates/Slice0/Obligations.lean ====
section
/-! DEFINITION. The statements about the model, for the provers. Each docstring names the rule of spec/ it rests on. -/

open Sys2Proof Sys2Proof.Machine

/-! Decoding and the step. -/

/-- 30_encoding.md R41, 95_test_vectors.md section 5: words written out from the patterns decode as the map says, and
the nearest illegal words are rejected for the reason R42 gives. -/
def Obligations.OpcodeMapWordsDecode : Prop :=
  decode 0b0000000000000000#16 = .ok .nop ∧ decode 0b0000000100000000#16 = .ok .statrd ∧
  decode 0b0001000000000000#16 = .ok .crcinit ∧ decode 0b0001000101001001#16 = .ok (.crcupd 0x49#8) ∧
  decode 0b0001001000000000#16 = .ok .crcget ∧ decode 0b0001001100000011#16 = .ok (.crcgetb 3#2) ∧
  decode 0b0001010010000000#16 = .ok (.tblrd 0x80#8) ∧ decode 0b0010000000000000#16 = .ok .adlinit ∧
  decode 0b0010000101100001#16 = .ok (.adlupd 0x61#8) ∧ decode 0b0010001000000000#16 = .ok .adlget ∧
  decode 0b0010001100000010#16 = .ok (.adlgetb 2#2) ∧
  decode 0x0001#16 = .error .operandNotZero ∧ decode 0x0200#16 = .error .unassignedOpcode ∧
  decode 0x1201#16 = .error .operandNotZero ∧ decode 0x1304#16 = .error .selectorTooWide ∧
  decode 0x1500#16 = .error .unassignedOpcode ∧ decode 0x2380#16 = .error .selectorTooWide ∧
  decode 0xFFFF#16 = .error .unassignedOpcode

/-- Each command has exactly one word and each legal word exactly one reading (95_test_vectors.md section 5: encode
then decode, and decode then encode, are identities). -/
def Obligations.EveryWordHasOneReading : Prop :=
  ∀ (w : Cmd) (i : Instr), decode w = .ok i ↔ w = encode i

/-- 30_encoding.md R42: every word matches exactly one row of the opcode map, or is illegal by the prose of R42 (the
check `illegalReason`, written apart from the rows) and then matches none, is rejected for that reason, sets `ILL` of
its channel, changes nothing else and gives no response. -/
def Obligations.DecodingIsTotalAndIllegalWordsAreNamed : Prop :=
  ∀ w : Cmd,
    (legalWord w = true →
      (rows.filter fun r => r.selects w).length = 1 ∧ ∃ i, decode w = .ok i) ∧
    (∀ e, illegalReason w = some e →
      (rows.filter fun r => r.selects w) = [] ∧ decode w = .error e ∧
      ∀ (s : State) (ch : Chan), s.chanAt s.port = some ch →
        ∃ t, runWord w s = .next t ∧ t.chanAt s.port = some { ch with ill := true } ∧
          OtherChannelsSame s t ∧ TableSame s t ∧ t.rsp = none ∧ OutsideSame s t)

/-- A step that takes a legal word is `exec` of its command on the channel it was presented on (20_memory.md R33, R34,
30_encoding.md R49): the word leaves the pending list, its channel becomes `port`, and no older response is left. -/
def Obligations.StepRunsDecodedCommand : Prop :=
  ∀ (s : State) (c : Nat) (w : Cmd) (rest : List Presented) (ch : Chan) (i : Instr),
    s.resetIn = false → s.pending = ⟨c, w⟩ :: rest → s.chanAt c = some ch → decode w = .ok i →
      step s = exec i { s with pending := rest, port := c, rsp := none }

/-- The model's choice (log 6): a word on a channel the unit does not have stops the model. -/
def Obligations.WordOnMissingChannelFaults : Prop :=
  ∀ (s : State) (p : Presented) (rest : List Presented),
    s.resetIn = false → s.pending = p :: rest → s.chanAt p.chan = none → step s = .fault .noSuchChannel

/-- 70_reset_and_hazards.md R96, and the model's choice of an idle step (log 7): with nothing presented the unit's
state does not change and there is no response. -/
def Obligations.IdleUnitDoesNothing : Prop :=
  ∀ s : State, s.resetIn = false → s.pending = [] →
    ∃ t, step s = .next t ∧ t.unit = s.unit ∧ t.rsp = none ∧ OutsideSame s t

/-! Reset. -/

/-- 10_state.md R21: the reset values, for every number of channels and under either policy. -/
def Obligations.ResetStateValues : Prop :=
  ∀ cfg : Config,
    (State.resetWith cfg).unit.chan.length = cfg.nch ∧
    (∀ c, c < cfg.nch → (State.resetWith cfg).chanAt c =
      some { crcAcc := 0xFFFFFFFF#32, s1 := 1#16, s2 := 0#16, ill := false }) ∧
    (cfg.policy = .lazy → ∀ v, (State.resetWith cfg).entryAt v = none) ∧
    (cfg.policy = .eager → ∀ v : Byte, (State.resetWith cfg).entryAt v.toNat = some (entry v))

/-- 70_reset_and_hazards.md section 1: when reset is asserted the next step, whatever the state and whatever is
presented, leaves the unit in its reset state (R93), and the pending words and the last response are lost (R95). That
the same step releases reset (log 3), and that `port` is 0 after it (log 11), are the model's choices: the state it
equates has both. -/
def Obligations.AssertedResetLeavesResetState : Prop :=
  ∀ s : State, s.resetIn = true → step s = .next (State.resetWith s.cfg)

/-- 10_state.md R21, last sentence: a channel that has just executed `CRCINIT` and `ADLINIT`, with no illegal word
since reset, is in the state of a channel fresh from reset. -/
def Obligations.InitialisedChannelIsFreshFromReset : Prop :=
  ∀ (s : State) (ch : Chan) (cfg : Config), s.chanAt s.port = some ch → ch.ill = false → 1 ≤ cfg.nch →
    ∃ t u, exec .crcinit s = .next t ∧ exec .adlinit t = .next u ∧
      u.chanAt s.port = (State.resetWith cfg).chanAt 0

/-! The commands: result, completion and frame. -/

/-- 42_system.md R69. -/
def Obligations.NopDoesNothing : Prop :=
  (∀ w, decode w = .ok .nop ↔ w = 0x0000#16) ∧
  (∀ w : Cmd, 0x0001 ≤ w.toNat → w.toNat ≤ 0x00FF → legalWord w = false) ∧
  ∀ s : State, ∃ t, exec .nop s = .next t ∧ t.unit = s.unit ∧ t.rsp = none ∧ OutsideSame s t

/-- 42_system.md R70. -/
def Obligations.StatrdReadsIll : Prop :=
  decode 0x0100#16 = .ok .statrd ∧
  ∀ (s : State) (ch : Chan), s.chanAt s.port = some ch →
    ∃ t, exec .statrd s = .next t ∧ t.rsp = some ⟨s.port, if ch.ill = true then 1#32 else 0#32⟩ ∧
      t.unit = s.unit ∧ OutsideSame s t

/-- 40_crc32.md R50. -/
def Obligations.CrcinitPresetsAccumulator : Prop :=
  decode 0x1000#16 = .ok .crcinit ∧
  ∀ (s : State) (ch : Chan), s.chanAt s.port = some ch →
    ∃ t, exec .crcinit s = .next t ∧ t.chanAt s.port = some { ch with crcAcc := 0xFFFFFFFF#32 } ∧
      OtherChannelsSame s t ∧ TableSame s t ∧ t.rsp = none ∧ OutsideSame s t

/-- 40_crc32.md R51, with `TblLookup` of 20_memory.md R26: `e` is the entry of index `CRC_ACC[c][7:0] ^ b`, the valid
one if there is one (a hit, which writes nothing) and `Entry` of the index if not (a miss, which fills it). -/
def Obligations.CrcupdFoldsByte : Prop :=
  (∀ b : Byte, decode (0x1100#16 ||| b.setWidth 16) = .ok (.crcupd b)) ∧
  ∀ (s : State) (ch : Chan) (b : Byte), s.chanAt s.port = some ch →
    ∃ t e, exec (.crcupd b) s = .next t ∧
      (s.entryAt (ch.crcAcc.extractLsb' 0 8 ^^^ b).toNat = some e ∨
        (s.entryAt (ch.crcAcc.extractLsb' 0 8 ^^^ b).toNat = none ∧
          e = entry (ch.crcAcc.extractLsb' 0 8 ^^^ b))) ∧
      t.chanAt s.port = some { ch with crcAcc := e ^^^ (ch.crcAcc >>> 8) } ∧
      t.entryAt (ch.crcAcc.extractLsb' 0 8 ^^^ b).toNat = some e ∧
      (∀ v, v ≠ (ch.crcAcc.extractLsb' 0 8 ^^^ b).toNat → t.entryAt v = s.entryAt v) ∧
      OtherChannelsSame s t ∧ t.rsp = none ∧ OutsideSame s t

/-- 40_crc32.md R52. -/
def Obligations.CrcgetReadsComplement : Prop :=
  decode 0x1200#16 = .ok .crcget ∧
  ∀ (s : State) (ch : Chan), s.chanAt s.port = some ch →
    ∃ t, exec .crcget s = .next t ∧ t.rsp = some ⟨s.port, ~~~ch.crcAcc⟩ ∧ t.unit = s.unit ∧ OutsideSame s t

/-- 40_crc32.md R53: byte `k` of the result in emission order, `k = 0` the most significant. -/
def Obligations.CrcgetbReadsByte : Prop :=
  (∀ k : Sel, decode (0x1300#16 ||| k.setWidth 16) = .ok (.crcgetb k)) ∧
  (∀ w : Cmd, 0x1304 ≤ w.toNat → w.toNat ≤ 0x13FF → legalWord w = false) ∧
  ∀ (s : State) (ch : Chan) (k : Sel), s.chanAt s.port = some ch →
    ∃ t, exec (.crcgetb k) s = .next t ∧
      t.rsp = some ⟨s.port, ((ch.crcAcc ^^^ 0xFFFFFFFF#32) >>> (24 - 8 * k.toNat)) &&& 0xFF#32⟩ ∧
      t.unit = s.unit ∧ OutsideSame s t

/-- 40_crc32.md R54: the response is the entry, filled if it was not valid, and `Entry(v)` wherever the table
invariant holds (20_memory.md R27). No channel is needed for it. -/
def Obligations.TblrdReadsEntry : Prop :=
  (∀ v : Byte, decode (0x1400#16 ||| v.setWidth 16) = .ok (.tblrd v)) ∧
  ∀ (s : State) (v : Byte),
    ∃ t e, exec (.tblrd v) s = .next t ∧
      (s.entryAt v.toNat = some e ∨ (s.entryAt v.toNat = none ∧ e = entry v)) ∧
      (s.TableOk → e = entry v) ∧
      t.rsp = some ⟨s.port, e⟩ ∧ t.entryAt v.toNat = some e ∧
      (∀ u, u ≠ v.toNat → t.entryAt u = s.entryAt u) ∧ t.unit.chan = s.unit.chan ∧ OutsideSame s t

/-- 41_adler32.md R60. -/
def Obligations.AdlinitPresetsSums : Prop :=
  decode 0x2000#16 = .ok .adlinit ∧
  ∀ (s : State) (ch : Chan), s.chanAt s.port = some ch →
    ∃ t, exec .adlinit s = .next t ∧ t.chanAt s.port = some { ch with s1 := 1#16, s2 := 0#16 } ∧
      OtherChannelsSame s t ∧ TableSame s t ∧ t.rsp = none ∧ OutsideSame s t

/-- 41_adler32.md R61: the exact sums modulo 65521, `s2` with the new `s1`. -/
def Obligations.AdlupdAddsByte : Prop :=
  (∀ b : Byte, decode (0x2100#16 ||| b.setWidth 16) = .ok (.adlupd b)) ∧
  ∀ (s : State) (ch : Chan) (b : Byte), s.chanAt s.port = some ch →
    ∃ t n1 n2, exec (.adlupd b) s = .next t ∧
      n1.toNat = (ch.s1.toNat + b.toNat) % 65521 ∧ n2.toNat = (ch.s2.toNat + n1.toNat) % 65521 ∧
      t.chanAt s.port = some { ch with s1 := n1, s2 := n2 } ∧
      OtherChannelsSame s t ∧ TableSame s t ∧ t.rsp = none ∧ OutsideSame s t

/-- 41_adler32.md R62: `s2` in bits 31:16 and `s1` in bits 15:0. -/
def Obligations.AdlgetReadsSums : Prop :=
  decode 0x2200#16 = .ok .adlget ∧
  ∀ (s : State) (ch : Chan), s.chanAt s.port = some ch →
    ∃ t d, exec .adlget s = .next t ∧ t.rsp = some ⟨s.port, d⟩ ∧
      d.toNat = ch.s2.toNat * 65536 + ch.s1.toNat ∧ t.unit = s.unit ∧ OutsideSame s t

/-- 41_adler32.md R63: `s2` high, `s2` low, `s1` high, `s1` low. -/
def Obligations.AdlgetbReadsByte : Prop :=
  (∀ k : Sel, decode (0x2300#16 ||| k.setWidth 16) = .ok (.adlgetb k)) ∧
  (∀ w : Cmd, 0x2304 ≤ w.toNat → w.toNat ≤ 0x23FF → legalWord w = false) ∧
  ∀ (s : State) (ch : Chan) (k : Sel), s.chanAt s.port = some ch →
    ∃ t d, exec (.adlgetb k) s = .next t ∧ t.rsp = some ⟨s.port, d⟩ ∧
      (k = 0#2 → d.toNat = ch.s2.toNat / 256) ∧ (k = 1#2 → d.toNat = ch.s2.toNat % 256) ∧
      (k = 2#2 → d.toNat = ch.s1.toNat / 256) ∧ (k = 3#2 → d.toNat = ch.s1.toNat % 256) ∧
      t.unit = s.unit ∧ OutsideSame s t

/-- 40_crc32.md R52, R53 and 41_adler32.md R62, R63: the six reading forms but `TBLRD` write no register of any channel
and no table entry; `NOP` neither. -/
def Obligations.ReadsWriteNothing : Prop :=
  ∀ (i : Instr) (s t : State),
    (i = .nop ∨ i = .statrd ∨ i = .crcget ∨ i = .adlget ∨ (∃ k, i = .crcgetb k) ∨ (∃ k, i = .adlgetb k)) →
    exec i s = .next t →
      (∀ c, t.chanAt c = s.chanAt c) ∧ TableSame s t ∧ OutsideSame s t

/-- 41_adler32.md R68: the two engines of a channel are independent. The Adler commands leave the CRC accumulator and
the table unchanged, the CRC commands and `TBLRD` leave both Adler sums unchanged, and none of them writes `ILL`
(40_crc32.md, "Flags: none"). -/
def Obligations.EnginesAreIndependent : Prop :=
  ∀ (i : Instr) (s t : State) (c : Nat) (ch : Chan), exec i s = .next t → s.chanAt c = some ch →
    ∃ ch', t.chanAt c = some ch' ∧ ch'.ill = ch.ill ∧
      ((i = .adlinit ∨ ∃ b, i = .adlupd b) → ch'.crcAcc = ch.crcAcc ∧ TableSame s t) ∧
      ((i = .crcinit ∨ (∃ b, i = .crcupd b) ∨ ∃ v, i = .tblrd v) → ch'.s1 = ch.s1 ∧ ch'.s2 = ch.s2)

/-- 60_exceptions.md R82: an illegal word sets `ILL` of its channel and does nothing else; nothing else raises it. -/
def Obligations.IllegalWordSetsOnlyIll : Prop :=
  ∀ (s : State) (c : Nat) (w : Cmd) (rest : List Presented) (ch : Chan),
    s.resetIn = false → s.pending = ⟨c, w⟩ :: rest → s.chanAt c = some ch →
    (legalWord w = false →
      ∃ t, step s = .next t ∧ t.chanAt c = some { ch with ill := true } ∧
        (∀ d, d ≠ c → t.chanAt d = s.chanAt d) ∧ TableSame s t ∧ t.rsp = none ∧
        t.cfg = s.cfg ∧ t.pending = rest ∧ t.resetIn = false ∧ t.port = c) ∧
    (legalWord w = true →
      ∃ t, step s = .next t ∧ ∀ d, (t.chanAt d).map (·.ill) = (s.chanAt d).map (·.ill))

/-- 30_encoding.md R43: whether a command responds is fixed by the command; the byte reads and the status read have
zeros above. -/
def Obligations.ResponseIsFixedByCommand : Prop :=
  (∀ (i : Instr) (s t : State), exec i s = .next t →
    (responds i = true → ∃ d, t.rsp = some ⟨s.port, d⟩) ∧ (responds i = false → t.rsp = none) ∧
    (∀ k d, i = .crcgetb k ∨ i = .adlgetb k → t.rsp = some ⟨s.port, d⟩ → d.toNat < 256) ∧
    (∀ ch d, i = .statrd → s.chanAt s.port = some ch → t.rsp = some ⟨s.port, d⟩ →
      d.toNat = if ch.ill = true then 1 else 0)) ∧
  ∀ (w : Cmd) (s t : State), legalWord w = false → runWord w s = .next t → t.rsp = none

/-- 10_state.md section 3: no step but reset clears `ILL` of any channel. -/
def Obligations.IllIsClearedOnlyByReset : Prop :=
  ∀ (s t : State) (c : Nat) (ch : Chan), s.resetIn = false → step s = .next t → s.chanAt c = some ch → ch.ill = true →
    ∃ ch', t.chanAt c = some ch' ∧ ch'.ill = true

/-- 10_state.md section 3: `ILL` changes the result of no command but `STATRD`. -/
def Obligations.IllChangesNoResult : Prop :=
  ∀ (i : Instr) (s : State) (ch : Chan) (x : Bool), i ≠ .statrd → s.chanAt s.port = some ch →
    ∃ t u ch', exec i s = .next t ∧ exec i (s.setChan { ch with ill := x }) = .next u ∧
      u.rsp = t.rsp ∧ u.unit.tbl = t.unit.tbl ∧
      t.chanAt s.port = some ch' ∧ u.chanAt s.port = some { ch' with ill := x }

/-! The table. -/

/-- 10_state.md section 4 and 20_memory.md section 3: while reset is not asserted no step changes or invalidates a
valid entry, in any state. -/
def Obligations.ValidEntriesStay : Prop :=
  ∀ (s t : State) (v : Nat) (e : Word), s.resetIn = false → step s = .next t → s.entryAt v = some e →
    t.entryAt v = some e

/-- 20_memory.md section 3 (R26): a step that takes a word fills no entry but the one its command asks for, index
`(CRC_ACC[c] ^ b) & 0xFF` for `CRCUPD b` and `v` for `TBLRD v`, and that one only if it was not valid, with `Entry` of
its index; a step that takes any other word leaves the table unchanged. So does the idle step, which is the model's
choice (log 7). -/
def Obligations.StepFillsAtMostOneEntry : Prop :=
  ∀ s t : State, s.resetIn = false → step s = .next t →
    (s.pending = [] → TableSame s t) ∧
    ∀ (c : Nat) (w : Cmd) (rest : List Presented) (ch : Chan),
      s.pending = ⟨c, w⟩ :: rest → s.chanAt c = some ch →
        (∀ b, decode w = .ok (.crcupd b) → FillsOnDemand s t (crcIndex ch.crcAcc b)) ∧
        (∀ v, decode w = .ok (.tblrd v) → FillsOnDemand s t v) ∧
        ((∀ b, decode w ≠ .ok (.crcupd b)) → (∀ v, decode w ≠ .ok (.tblrd v)) → TableSame s t)

/-- 10_state.md R20: in every reachable state (a) a valid entry is `Entry` of its index, and (b), (c) it stays valid
and unchanged until reset. -/
def Obligations.TableInvariantsInReachableStates : Prop :=
  ∀ s : State, Reachable s →
    (∀ (v : Nat) (e : Word), s.entryAt v = some e → v < 256 ∧ e = entry (BitVec.ofNat 8 v)) ∧
    ∀ t : State, s.resetIn = false → step s = .next t →
      ∀ (v : Nat) (e : Word), s.entryAt v = some e → t.entryAt v = some e

/-- 20_memory.md section 3 (R27): in every reachable state a lookup returns `Entry` of its index, and under `eager` it
never writes. -/
def Obligations.LookupReturnsEntryInReachableStates : Prop :=
  ∀ (s : State) (v : Byte), Reachable s →
    (Memory.lookup s.unit.tbl v).1 = entry v ∧
    (s.cfg.policy = .eager → (Memory.lookup s.unit.tbl v).2 = s.unit.tbl)

/-- 20_memory.md section 2 (R25): the iteration traces of 95_test_vectors.md section 2. -/
def Obligations.EntryTraces : Prop :=
  (List.range 9).map (fun n => entryLoop n 0x01#32) =
    [0x00000001#32, 0xEDB88320#32, 0x76DC4190#32, 0x3B6E20C8#32, 0x1DB71064#32, 0x0EDB8832#32, 0x076DC419#32,
      0xEE0E612C#32, 0x77073096#32] ∧
  (List.range 9).map (fun n => entryLoop n 0xFF#32) =
    [0x000000FF#32, 0xEDB8835F#32, 0x9B64C28F#32, 0xA00AE267#32, 0xBDBDF213#32, 0xB3667A29#32, 0xB40BBE34#32,
      0x5A05DF1A#32, 0x2D02EF8D#32] ∧
  entry 0x01#8 = 0x77073096#32 ∧ entry 0xFF#8 = 0x2D02EF8D#32 ∧ entry 0xB6#8 = 0x220216B9#32

/-- 40_crc32.md R58. -/
def Obligations.EntryProperties : Prop :=
  entry 0x00#8 = 0x00000000#32 ∧ entry 0x80#8 = 0xEDB88320#32 ∧
  (∀ u v : Byte, entry (u ^^^ v) = entry u ^^^ entry v) ∧
  (∀ u v : Byte, entry u = entry v → u = v) ∧
  ∀ u v : Byte, (entry u).extractLsb' 24 8 = (entry v).extractLsb' 24 8 → u = v

/-- 40_crc32.md R57: the table-driven update is the bit-serial one. -/
def Obligations.TableUpdateIsBitSerial : Prop :=
  ∀ (a : Word) (b : Byte), crcStep a b = crcStepSerial a b

/-- 41_adler32.md R66: for sums in their legal range each reduction is one conditional subtraction. -/
def Obligations.AdlerReductionIsOneSubtraction : Prop :=
  ∀ (s1 s2 : Half) (b : Byte), s1.toNat ≤ 65520 → s2.toNat ≤ 65520 →
    (adlerS1 s1 b).toNat =
      (if 65521 ≤ s1.toNat + b.toNat then s1.toNat + b.toNat - 65521 else s1.toNat + b.toNat) ∧
    (adlerS2 s2 (adlerS1 s1 b)).toNat =
      (if 65521 ≤ s2.toNat + (adlerS1 s1 b).toNat then s2.toNat + (adlerS1 s1 b).toNat - 65521
        else s2.toNat + (adlerS1 s1 b).toNat)

/-! Whole-machine rules. -/

/-- 10_state.md R15. -/
def Obligations.AdlerSumsStayInRange : Prop :=
  ∀ (s : State) (c : Nat) (ch : Chan), Reachable s → s.chanAt c = some ch →
    ch.s1.toNat ≤ 65520 ∧ ch.s2.toNat ≤ 65520

/-- The invariant `State.Inv` (10_state.md R10, R15, R20, and the model's ports) is kept by every step, from every
state that has it. -/
def Obligations.StepKeepsInvariant : Prop :=
  ∀ s t : State, s.Inv → step s = .next t → t.Inv

/-- The invariant holds after reset, for every legal configuration. -/
def Obligations.ResetHasInvariant : Prop :=
  ∀ cfg : Config, cfg.wf = true → (State.resetWith cfg).Inv

/-- The invariant is kept when a host presents any word on a port there is (43_call_protocol.md R79) and when reset is
asserted. -/
def Obligations.HostsKeepInvariant : Prop :=
  ∀ (s : State) (c : Nat) (w : Cmd), s.Inv → c < s.cfg.nch → (s.present c w).Inv ∧ s.assertReset.Inv

/-- 60_exceptions.md section 1 and 43_call_protocol.md section 2: in every state with the invariant, whatever is
presented, a step answers a next state, and unless it is the reset the first pending word, if there is one, is consumed
and those behind it are left pending. That a step also answers a next state when no word is pending, the idle step, is
the model's choice (log 7). -/
def Obligations.EveryStepCompletes : Prop :=
  ∀ s : State, s.Inv → ∃ t, step s = .next t ∧ (s.resetIn = false → t.pending = s.pending.tail)

/-- 30_encoding.md R49, 10_state.md R10: what a command does to its channel and what it answers depends on that
channel's registers alone, not on the other channels, the number of channels, the policy, or which entries are valid;
and no other channel changes. -/
def Obligations.CommandDependsOnItsChannelAlone : Prop :=
  ∀ (i : Instr) (s s' : State) (ch : Chan), s.TableOk → s'.TableOk → s'.port = s.port →
    s.chanAt s.port = some ch → s'.chanAt s'.port = some ch →
    ∃ t t', exec i s = .next t ∧ exec i s' = .next t' ∧ t'.rsp = t.rsp ∧
      t'.chanAt s.port = t.chanAt s.port ∧ OtherChannelsSame s t ∧ OtherChannelsSame s' t'

/-- 20_memory.md section 3 and section 6 (R27, R35): after any number `k` of the pending words, taken in any total
order of the channels' words, every channel's registers and its responses are those of that channel run alone on its
own words with every lookup replaced by `Entry`. -/
def Obligations.MachineRefinesIndependentChannels : Prop :=
  ∀ (s : State) (k : Nat), s.Inv → s.resetIn = false → k ≤ s.pending.length →
    ∃ rs t, runTrace k s = some (rs, t) ∧ t.pending = s.pending.drop k ∧
      ∀ (c : Nat) (ch : Chan), s.chanAt c = some ch →
        responsesOn c rs = (chanRun ch (wordsOn c (s.pending.take k))).1 ∧
        t.chanAt c = some (chanRun ch (wordsOn c (s.pending.take k))).2

/-- 20_memory.md R35, 43_call_protocol.md R73: two runs, on units that may differ in policy, number of channels, table
and other channels, whose schedules give channel `c` the same words and start it in the same registers, give it the
same responses and leave it the same registers. -/
def Obligations.ChannelResultsIgnoreInterleaving : Prop :=
  ∀ (s s' : State) (c : Nat) (ch : Chan) (rs rs' : List Response) (t t' : State),
    s.Inv → s'.Inv → s.resetIn = false → s'.resetIn = false →
    s.chanAt c = some ch → s'.chanAt c = some ch → wordsOn c s.pending = wordsOn c s'.pending →
    runTrace s.pending.length s = some (rs, t) → runTrace s'.pending.length s' = some (rs', t') →
      responsesOn c rs = responsesOn c rs' ∧ t.chanAt c = t'.chanAt c

/-! Calls. -/

/-- 40_crc32.md R55: among any other words, on this channel and on others, the updates of a channel fold their bytes
into its accumulator; and after a `CRCINIT` before them `CRCGET` answers the checksum. -/
def Obligations.UpdatesFoldIntoAccumulator : Prop :=
  ∀ (s : State) (c : Nat) (ch : Chan) (bs : List Byte), s.Inv → s.resetIn = false → s.chanAt c = some ch →
    ((wordsOn c s.pending).filter writesCrc = bs.map (fun b => encode (.crcupd b)) →
      ∃ rs t, runTrace s.pending.length s = some (rs, t) ∧
        (t.chanAt c).map (·.crcAcc) = some (crcFold ch.crcAcc bs)) ∧
    ((wordsOn c s.pending).filter writesCrc = encode .crcinit :: bs.map (fun b => encode (.crcupd b)) →
      ∃ rs t u, runTrace s.pending.length s = some (rs, t) ∧
        exec .crcget { t with port := c } = .next u ∧
        u.rsp = some ⟨c, crcFold 0xFFFFFFFF#32 bs ^^^ 0xFFFFFFFF#32⟩)

/-- 43_call_protocol.md section 1 (R71), 30_encoding.md R47: the pseudo-instruction `CRC32` on a channel answers once,
with the CRC-32 of its bytes, whatever the state before it. -/
def Obligations.CrcCallAnswersCrc32 : Prop :=
  ∀ (s : State) (c : Nat) (bs : List Byte) (rest : List Presented), s.Inv → s.resetIn = false →
    s.pending = presentedOn c (Pseudo.crc32 bs).expand ++ rest →
    ∃ t, runTrace (bs.length + 2) s = some ([⟨c, crc32 bs⟩], t) ∧ t.pending = rest

/-- 40_crc32.md R56: reading does not end a call: `CRCGET` after `x` and again after `y` answers the checksum of `x` and
that of `x ++ y`, and folding `x ++ y` is folding `y` after `x`. -/
def Obligations.CrcCallContinues : Prop :=
  (∀ (a : Word) (x y : List Byte), crcFold a (x ++ y) = crcFold (crcFold a x) y) ∧
  ∀ (s : State) (c : Nat) (x y : List Byte), s.Inv → s.resetIn = false →
    s.pending = presentedOn c ((Pseudo.crc32 x).expand ++ (Pseudo.crcfeed y).expand ++ [.crcget]) →
    ∃ t, runTrace s.pending.length s = some ([⟨c, crc32 x⟩, ⟨c, crc32 (x ++ y)⟩], t)

/-- 41_adler32.md R67: after `ADLINIT` and then the updates, among any other words, the sums are the closed form. -/
def Obligations.AdlerSumsHaveClosedForm : Prop :=
  ∀ (s : State) (c : Nat) (ch : Chan) (bs : List Byte), s.Inv → s.resetIn = false → s.chanAt c = some ch →
    (wordsOn c s.pending).filter writesAdler = encode .adlinit :: bs.map (fun b => encode (.adlupd b)) →
    ∃ rs t ch', runTrace s.pending.length s = some (rs, t) ∧ t.chanAt c = some ch' ∧
      ch'.s1.toNat = (1 + byteSum bs) % 65521 ∧ ch'.s2.toNat = (bs.length + weightedByteSum bs) % 65521

/-- 43_call_protocol.md section 1 (R72), 30_encoding.md R47: the pseudo-instruction `ADLER32` on a channel answers
once, with the Adler-32 of its bytes, whatever the state before it. -/
def Obligations.AdlerCallAnswersAdler32 : Prop :=
  ∀ (s : State) (c : Nat) (bs : List Byte) (rest : List Presented), s.Inv → s.resetIn = false →
    s.pending = presentedOn c (Pseudo.adler32 bs).expand ++ rest →
    ∃ t, runTrace (bs.length + 2) s = some ([⟨c, adler32 bs⟩], t) ∧ t.pending = rest

/-- 43_call_protocol.md R74: the empty calls, on the machine and as functions. -/
def Obligations.EmptyCallsAnswerZeroAndOne : Prop :=
  crc32 [] = 0x00000000#32 ∧ adler32 [] = 0x00000001#32 ∧
  ∀ (s : State) (ch : Chan), s.chanAt s.port = some ch →
    (∃ t u, exec .crcinit s = .next t ∧ exec .crcget t = .next u ∧ u.rsp = some ⟨s.port, 0x00000000#32⟩) ∧
    ∃ t u, exec .adlinit s = .next t ∧ exec .adlget t = .next u ∧ u.rsp = some ⟨s.port, 0x00000001#32⟩

/-- 30_encoding.md R48, 20_memory.md R30: `EMITCRC` and `EMITADL` yield four responses whose low bytes, in order, are
the big-endian form of the result. -/
def Obligations.EmissionIsBigEndian : Prop :=
  ∀ (s : State) (c : Nat) (ch : Chan) (rest : List Presented), s.Inv → s.resetIn = false → s.chanAt c = some ch →
    (s.pending = presentedOn c Pseudo.emitcrc.expand ++ rest →
      ∃ rs t, runTrace 4 s = some (rs, t) ∧ t.unit = s.unit ∧ t.pending = rest ∧
        rs.map (·.chan) = [c, c, c, c] ∧ rs.map (·.data.setWidth 8) = be4 (ch.crcAcc ^^^ 0xFFFFFFFF#32)) ∧
    (s.pending = presentedOn c Pseudo.emitadl.expand ++ rest →
      ∃ rs t, runTrace 4 s = some (rs, t) ∧ t.unit = s.unit ∧ t.pending = rest ∧
        rs.map (·.chan) = [c, c, c, c] ∧ rs.map (·.data.setWidth 8) = be4 (ch.s2 ++ ch.s1))

/-! The assembler and the host's side. -/

/-- 30_encoding.md R46: a command written in assembler syntax assembles to its one word, on channel 0 without a
prefix and on channel `d` with the prefix of a one-digit `d`. -/
def Obligations.RenderedCommandAssembles : Prop :=
  ∀ (i : Instr) (d : Fin 10),
    assembleLine (render i) = some (0, [encode i]) ∧
    assembleLine ('c' :: 'h' :: hexChar d.val :: ':' :: ' ' :: render i) = some (d.val, [encode i])

/-- 30_encoding.md R47: the lengths of the expansions. -/
def Obligations.ExpansionLengths : Prop :=
  ∀ bs : List Byte, (Pseudo.crc32 bs).expand.length = bs.length + 2 ∧
    (Pseudo.adler32 bs).expand.length = bs.length + 2 ∧ (Pseudo.crcfeed bs).expand.length = bs.length ∧
    (Pseudo.adlfeed bs).expand.length = bs.length

/-- 43_call_protocol.md section 3 (R76, R77): the commands of a chunk yield, as the low bytes of the responses, the
big-endian CRC-32 of the type bytes followed by the data bytes. The codes of the type letters are the model's (log
16). -/
def Obligations.ChunkCommandsEmitChunkCrc : Prop :=
  ∀ (s : State) (c : Nat) (ty : ChunkType) (data : List Byte), s.Inv → s.resetIn = false →
    s.pending = presentedOn c (chunkCommands ty data) →
    ∃ rs t, runTrace s.pending.length s = some (rs, t) ∧
      rs.map (·.data.setWidth 8) = be4 (crc32 (ty.bytes ++ data))

/-- 43_call_protocol.md section 3 (R78): the commands of an image yield the big-endian Adler-32 of its filtered image
data, which is `height * (1 + 3 * width)` bytes. -/
def Obligations.ImageCommandsEmitAdler : Prop :=
  ∀ (s : State) (c : Nat) (rows : List (List Pixel)) (width : Nat), s.Inv → s.resetIn = false →
    (∀ row ∈ rows, row.length = width) → s.pending = presentedOn c (imageCommands rows) →
    (filteredImage rows).length = rows.length * (1 + 3 * width) ∧
    ∃ rs t, runTrace s.pending.length s = some (rs, t) ∧
      rs.map (·.data.setWidth 8) = be4 (adler32 (filteredImage rows))

/-- 43_call_protocol.md section 3 (R76, R77): for each chunk with the data its type has, the commands of the chunk emit
what the host writes after the data. `IHDR` covers 4 + 13 bytes, `IDAT` its type bytes and the whole zlib envelope,
which ends in the Adler-32 trailer, and `IEND` its type bytes alone. The codes of the type letters are the model's (log
16), and the header and compressed bytes of the envelope are any (log 19). -/
def Obligations.ChunkIsWrittenWithEmittedCrc : Prop :=
  ∀ (s : State) (c : Nat) (k : Chunk), s.Inv → s.resetIn = false → s.pending = presentedOn c k.commands →
    (∃ rs t, runTrace s.pending.length s = some (rs, t) ∧
      k.writtenAfterLength = k.type.bytes ++ k.data ++ rs.map (·.data.setWidth 8)) ∧
    (k.type = .IHDR → k.covered.length = 4 + 13) ∧
    (∀ z, k = .idat z → k.covered =
      [0x49#8, 0x44#8, 0x41#8, 0x54#8] ++ [z.cmf, z.flg] ++ z.compressed ++ be4 (adler32 (filteredImage z.image))) ∧
    (k.type = .IEND → k.covered = [0x49#8, 0x45#8, 0x4E#8, 0x44#8])

/-- 43_call_protocol.md section 3 (R78): what the commands of an image emit stands directly after the compressed bytes,
as the last four bytes of the zlib envelope, which is the `IDAT` chunk's data. The header and compressed bytes are any
(log 19). -/
def Obligations.EnvelopeEndsWithEmittedAdler : Prop :=
  ∀ (s : State) (c : Nat) (z : ZlibEnvelope), s.Inv → s.resetIn = false →
    s.pending = presentedOn c (imageCommands z.image) →
    ∃ rs t, runTrace s.pending.length s = some (rs, t) ∧ rs.length = 4 ∧
      (Chunk.idat z).data = z.cmf :: z.flg :: (z.compressed ++ rs.map (·.data.setWidth 8))
end

