-- ==== Sys2Proof/Laws/Decode.lean ====
section
/-! SUPPORT. The fields of a word put together from its fields, and that no two rows of the opcode map overlap
(30_encoding.md R41). -/

namespace Sys2Proof

/-- Bit `i` of a word, from its two fields. -/
theorem word_getLsbD (o d : Byte) (i : Nat) :
    (word o d).getLsbD i = if i < 8 then d.getLsbD i else o.getLsbD (i - 8) :=
  (BitVec.getLsbD_append (x := o) (y := d) (i := i)).trans (by by_cases h : i < 8 <;> simp [h])

@[simp] theorem opc_word (o d : Byte) : opc (word o d) = o := by
  unfold opc
  ext i hi
  simp [word_getLsbD, hi, ← BitVec.getLsbD_eq_getElem]

@[simp] theorem opd_word (o d : Byte) : opd (word o d) = d := by
  unfold opd
  ext i hi
  simp [word_getLsbD, hi, ← BitVec.getLsbD_eq_getElem]

theorem word_opc_opd (w : Cmd) : word (opc w) (opd w) = w := by
  apply BitVec.eq_of_getLsbD_eq
  intro i hi
  rw [word_getLsbD]
  by_cases h : i < 8
  · simp [opd, h]
  · have e : 8 + (i - 8) = i := by omega
    have l : i - 8 < 8 := by omega
    simp [opc, h, e, l]

/-- Two different rows of the opcode map never select one word: some bit that both fix, they fix differently. -/
theorem rows_disjoint : rows.Pairwise (fun r q => r.mask &&& q.mask &&& (r.mtch ^^^ q.mtch) ≠ 0#16) := by decide

end Sys2Proof
end

