-- ==== Sys2Proof/Laws/Memory.lean ====
section
/-! SUPPORT. The laws of the table: read after write, and that every operation keeps the canonical form. -/

namespace Sys2Proof.Machine

open Sys2Proof

@[simp] theorem Memory.read_nil (v : Nat) : Memory.read [] v = none := rfl

theorem Memory.read_cons (a : Nat) (e : Word) (m : List (Nat × Word)) (v : Nat) :
    Memory.read ((a, e) :: m) v = if a = v then some e else Memory.read m v := rfl

/-- A value read is listed. -/
theorem Memory.mem_of_read {m : List (Nat × Word)} {v : Nat} {e : Word} (h : Memory.read m v = some e) :
    (v, e) ∈ m := by
  induction m with
  | nil => simp at h
  | cons p m ih =>
    obtain ⟨a, d⟩ := p
    rw [Memory.read_cons] at h
    split at h
    · simp_all
    · exact List.mem_cons_of_mem _ (ih h)

@[simp] theorem Memory.read_write_same (m : List (Nat × Word)) (v : Nat) (e : Word) :
    Memory.read (Memory.write m v e) v = some e := by
  induction m with
  | nil => simp [Memory.write, Memory.read_cons]
  | cons p m ih =>
    obtain ⟨a, d⟩ := p
    unfold Memory.write
    split
    · simp [Memory.read_cons]
    · split
      · simp [Memory.read_cons]
      · rename_i h
        rw [Memory.read_cons, if_neg (fun hh => h hh.symm), ih]

theorem Memory.read_write_other (m : List (Nat × Word)) (e : Word) {v u : Nat} (h : u ≠ v) :
    Memory.read (Memory.write m v e) u = Memory.read m u := by
  induction m with
  | nil => simp [Memory.write, Memory.read_cons, h.symm]
  | cons p m ih =>
    obtain ⟨a, d⟩ := p
    unfold Memory.write
    split
    · simp [Memory.read_cons, h.symm]
    · split
      · rename_i h2
        simp [Memory.read_cons, h.symm, ← h2]
      · simp [Memory.read_cons, ih]

/-- What a write lists: the new pair, and nothing else that was not listed. -/
theorem Memory.mem_write {m : List (Nat × Word)} {v : Nat} {e : Word} {p : Nat × Word}
    (h : p ∈ Memory.write m v e) : p = (v, e) ∨ p ∈ m := by
  induction m with
  | nil => simpa [Memory.write] using h
  | cons q m ih =>
    obtain ⟨a, d⟩ := q
    unfold Memory.write at h
    split at h
    · simpa using h
    · split at h
      · rcases List.mem_cons.1 h with h | h
        · exact .inl h
        · exact .inr (List.mem_cons_of_mem _ h)
      · rcases List.mem_cons.1 h with h | h
        · exact .inr (h ▸ List.mem_cons_self)
        · exact (ih h).imp id (List.mem_cons_of_mem _)

theorem Memory.write_sorted {m : List (Nat × Word)} (v : Nat) (e : Word)
    (h : (m.map Prod.fst).Pairwise (· < ·)) : ((Memory.write m v e).map Prod.fst).Pairwise (· < ·) := by
  induction m with
  | nil => simp [Memory.write]
  | cons q m ih =>
    obtain ⟨a, d⟩ := q
    rw [List.map_cons, List.pairwise_cons] at h
    obtain ⟨h1, h2⟩ := h
    unfold Memory.write
    split
    · rename_i hv
      simp only [List.map_cons, List.pairwise_cons]
      refine ⟨?_, h1, h2⟩
      intro b hb
      rcases List.mem_cons.1 hb with hb | hb
      · omega
      · exact Nat.lt_trans hv (h1 b hb)
    · split
      · rename_i hv
        simp only [List.map_cons, List.pairwise_cons]
        exact ⟨fun b hb => hv ▸ h1 b hb, h2⟩
      · simp only [List.map_cons, List.pairwise_cons]
        refine ⟨?_, ih h2⟩
        intro b hb
        obtain ⟨p, hp, rfl⟩ := List.mem_map.1 hb
        rcases Memory.mem_write hp with rfl | hp
        · simp only; omega
        · exact h1 _ (List.mem_map_of_mem hp)

/-- A write in the index space keeps the canonical form. -/
theorem Memory.write_wf {m : List (Nat × Word)} {v : Nat} (e : Word) (hv : v < tblEntries) (h : Memory.wf m) :
    Memory.wf (Memory.write m v e) := by
  refine ⟨Memory.write_sorted v e h.1, fun p hp => ?_⟩
  rcases Memory.mem_write hp with rfl | hp
  · exact hv
  · exact h.2 p hp

theorem Memory.lookup_hit {m : List (Nat × Word)} {v : Byte} {e : Word} (h : Memory.read m v.toNat = some e) :
    Memory.lookup m v = (e, m) := by simp [Memory.lookup, h]

theorem Memory.lookup_miss {m : List (Nat × Word)} {v : Byte} (h : Memory.read m v.toNat = none) :
    Memory.lookup m v = (entry v, Memory.write m v.toNat (entry v)) := by simp [Memory.lookup, h]

/-- What a lookup returns is what the table it leaves holds at that index: no slot is read before it is written
(20_memory.md R28). -/
theorem Memory.lookup_read (m : List (Nat × Word)) (v : Byte) :
    Memory.read (Memory.lookup m v).2 v.toNat = some (Memory.lookup m v).1 := by
  cases h : Memory.read m v.toNat with
  | none => simp [Memory.lookup_miss h]
  | some e => simp [Memory.lookup_hit h, h]

theorem Memory.lookup_read_other (m : List (Nat × Word)) (v : Byte) {u : Nat} (hu : u ≠ v.toNat) :
    Memory.read (Memory.lookup m v).2 u = Memory.read m u := by
  cases h : Memory.read m v.toNat with
  | none => simp [Memory.lookup_miss h, Memory.read_write_other m _ hu]
  | some e => simp [Memory.lookup_hit h]

/-- A lookup keeps the canonical form. -/
theorem Memory.lookup_wf {m : List (Nat × Word)} (v : Byte) (h : Memory.wf m) : Memory.wf (Memory.lookup m v).2 := by
  cases hr : Memory.read m v.toNat with
  | none => rw [Memory.lookup_miss hr]; exact Memory.write_wf _ v.isLt h
  | some e => rw [Memory.lookup_hit hr]; exact h

/-- What a lookup lists: what was listed, and at most the entry asked for. -/
theorem Memory.mem_lookup {m : List (Nat × Word)} {v : Byte} {p : Nat × Word} (h : p ∈ (Memory.lookup m v).2) :
    p = (v.toNat, entry v) ∨ p ∈ m := by
  cases hr : Memory.read m v.toNat with
  | none => rw [Memory.lookup_miss hr] at h; exact Memory.mem_write h
  | some e => rw [Memory.lookup_hit hr] at h; exact .inr h

theorem Memory.full_map_fst : Memory.full.map Prod.fst = List.range tblEntries := by
  simp only [Memory.full, List.map_map]
  exact List.map_id _

theorem Memory.full_wf : Memory.wf Memory.full := by
  refine ⟨by rw [Memory.full_map_fst]; exact List.pairwise_lt_range, fun p hp => ?_⟩
  have := List.mem_map_of_mem (f := Prod.fst) hp
  rw [Memory.full_map_fst] at this
  exact List.mem_range.1 this

/-- The table at reset is in canonical form under either policy. -/
theorem Memory.atReset_wf (p : TablePolicy) : Memory.wf (Memory.atReset p) := by
  cases p with
  | lazy => exact ⟨List.Pairwise.nil, by simp [Memory.atReset]⟩
  | eager => exact Memory.full_wf

end Sys2Proof.Machine
end

