-- ==== Sys2Proof/Laws/State.lean ====
section
/-! SUPPORT. One lemma per field per update of the state, so that no proof unfolds a record update. -/

namespace Sys2Proof.Machine

open Sys2Proof

@[simp] theorem State.setChan_cfg (s : State) (ch : Chan) : (s.setChan ch).cfg = s.cfg := rfl
@[simp] theorem State.setChan_unit_chan (s : State) (ch : Chan) : (s.setChan ch).unit.chan = s.unit.chan.set s.port ch := rfl
@[simp] theorem State.setChan_unit_tbl (s : State) (ch : Chan) : (s.setChan ch).unit.tbl = s.unit.tbl := rfl
@[simp] theorem State.setChan_pending (s : State) (ch : Chan) : (s.setChan ch).pending = s.pending := rfl
@[simp] theorem State.setChan_resetIn (s : State) (ch : Chan) : (s.setChan ch).resetIn = s.resetIn := rfl
@[simp] theorem State.setChan_port (s : State) (ch : Chan) : (s.setChan ch).port = s.port := rfl
@[simp] theorem State.setChan_rsp (s : State) (ch : Chan) : (s.setChan ch).rsp = s.rsp := rfl

@[simp] theorem State.setTbl_cfg (s : State) (m : Memory) : (s.setTbl m).cfg = s.cfg := rfl
@[simp] theorem State.setTbl_unit_chan (s : State) (m : Memory) : (s.setTbl m).unit.chan = s.unit.chan := rfl
@[simp] theorem State.setTbl_unit_tbl (s : State) (m : Memory) : (s.setTbl m).unit.tbl = m := rfl
@[simp] theorem State.setTbl_pending (s : State) (m : Memory) : (s.setTbl m).pending = s.pending := rfl
@[simp] theorem State.setTbl_resetIn (s : State) (m : Memory) : (s.setTbl m).resetIn = s.resetIn := rfl
@[simp] theorem State.setTbl_port (s : State) (m : Memory) : (s.setTbl m).port = s.port := rfl
@[simp] theorem State.setTbl_rsp (s : State) (m : Memory) : (s.setTbl m).rsp = s.rsp := rfl

@[simp] theorem State.respond_cfg (s : State) (v : Word) : (s.respond v).cfg = s.cfg := rfl
@[simp] theorem State.respond_unit_chan (s : State) (v : Word) : (s.respond v).unit.chan = s.unit.chan := rfl
@[simp] theorem State.respond_unit_tbl (s : State) (v : Word) : (s.respond v).unit.tbl = s.unit.tbl := rfl
@[simp] theorem State.respond_pending (s : State) (v : Word) : (s.respond v).pending = s.pending := rfl
@[simp] theorem State.respond_resetIn (s : State) (v : Word) : (s.respond v).resetIn = s.resetIn := rfl
@[simp] theorem State.respond_port (s : State) (v : Word) : (s.respond v).port = s.port := rfl
@[simp] theorem State.respond_rsp (s : State) (v : Word) : (s.respond v).rsp = some ⟨s.port, v⟩ := rfl

@[simp] theorem State.silent_cfg (s : State) : s.silent.cfg = s.cfg := rfl
@[simp] theorem State.silent_unit_chan (s : State) : s.silent.unit.chan = s.unit.chan := rfl
@[simp] theorem State.silent_unit_tbl (s : State) : s.silent.unit.tbl = s.unit.tbl := rfl
@[simp] theorem State.silent_pending (s : State) : s.silent.pending = s.pending := rfl
@[simp] theorem State.silent_resetIn (s : State) : s.silent.resetIn = s.resetIn := rfl
@[simp] theorem State.silent_port (s : State) : s.silent.port = s.port := rfl
@[simp] theorem State.silent_rsp (s : State) : s.silent.rsp = none := rfl

@[simp] theorem State.present_cfg (s : State) (c : Nat) (w : Cmd) : (s.present c w).cfg = s.cfg := rfl
@[simp] theorem State.present_unit_chan (s : State) (c : Nat) (w : Cmd) : (s.present c w).unit.chan = s.unit.chan := rfl
@[simp] theorem State.present_unit_tbl (s : State) (c : Nat) (w : Cmd) : (s.present c w).unit.tbl = s.unit.tbl := rfl
@[simp] theorem State.present_pending (s : State) (c : Nat) (w : Cmd) : (s.present c w).pending = s.pending ++ [⟨c, w⟩] := rfl
@[simp] theorem State.present_resetIn (s : State) (c : Nat) (w : Cmd) : (s.present c w).resetIn = s.resetIn := rfl
@[simp] theorem State.present_port (s : State) (c : Nat) (w : Cmd) : (s.present c w).port = s.port := rfl
@[simp] theorem State.present_rsp (s : State) (c : Nat) (w : Cmd) : (s.present c w).rsp = s.rsp := rfl

@[simp] theorem State.assertReset_cfg (s : State) : s.assertReset.cfg = s.cfg := rfl
@[simp] theorem State.assertReset_unit_chan (s : State) : s.assertReset.unit.chan = s.unit.chan := rfl
@[simp] theorem State.assertReset_unit_tbl (s : State) : s.assertReset.unit.tbl = s.unit.tbl := rfl
@[simp] theorem State.assertReset_pending (s : State) : s.assertReset.pending = s.pending := rfl
@[simp] theorem State.assertReset_resetIn (s : State) : s.assertReset.resetIn = true := rfl
@[simp] theorem State.assertReset_port (s : State) : s.assertReset.port = s.port := rfl
@[simp] theorem State.assertReset_rsp (s : State) : s.assertReset.rsp = s.rsp := rfl

@[simp] theorem State.takeReset_cfg (s : State) : s.takeReset.cfg = s.cfg := rfl
@[simp] theorem State.takeReset_unit_chan (s : State) : s.takeReset.unit.chan = List.replicate s.cfg.nch Chan.atReset := rfl
@[simp] theorem State.takeReset_unit_tbl (s : State) : s.takeReset.unit.tbl = Memory.atReset s.cfg.policy := rfl
@[simp] theorem State.takeReset_pending (s : State) : s.takeReset.pending = [] := rfl
@[simp] theorem State.takeReset_resetIn (s : State) : s.takeReset.resetIn = false := rfl
@[simp] theorem State.takeReset_port (s : State) : s.takeReset.port = 0 := rfl
@[simp] theorem State.takeReset_rsp (s : State) : s.takeReset.rsp = none := rfl

@[simp] theorem State.idle_cfg (s : State) : s.idle.cfg = s.cfg := rfl
@[simp] theorem State.idle_unit_chan (s : State) : s.idle.unit.chan = s.unit.chan := rfl
@[simp] theorem State.idle_unit_tbl (s : State) : s.idle.unit.tbl = s.unit.tbl := rfl
@[simp] theorem State.idle_pending (s : State) : s.idle.pending = s.pending := rfl
@[simp] theorem State.idle_resetIn (s : State) : s.idle.resetIn = s.resetIn := rfl
@[simp] theorem State.idle_port (s : State) : s.idle.port = s.port := rfl
@[simp] theorem State.idle_rsp (s : State) : s.idle.rsp = none := rfl

@[simp] theorem State.accept_cfg (s : State) (c : Nat) (rest : List Presented) : (s.accept c rest).cfg = s.cfg := rfl
@[simp] theorem State.accept_unit_chan (s : State) (c : Nat) (rest : List Presented) : (s.accept c rest).unit.chan = s.unit.chan := rfl
@[simp] theorem State.accept_unit_tbl (s : State) (c : Nat) (rest : List Presented) : (s.accept c rest).unit.tbl = s.unit.tbl := rfl
@[simp] theorem State.accept_pending (s : State) (c : Nat) (rest : List Presented) : (s.accept c rest).pending = rest := rfl
@[simp] theorem State.accept_resetIn (s : State) (c : Nat) (rest : List Presented) : (s.accept c rest).resetIn = s.resetIn := rfl
@[simp] theorem State.accept_port (s : State) (c : Nat) (rest : List Presented) : (s.accept c rest).port = c := rfl
@[simp] theorem State.accept_rsp (s : State) (c : Nat) (rest : List Presented) : (s.accept c rest).rsp = none := rfl

@[simp] theorem State.presentFirst_cfg (s : State) (w : Cmd) : (s.presentFirst w).cfg = s.cfg := rfl
@[simp] theorem State.presentFirst_unit_chan (s : State) (w : Cmd) : (s.presentFirst w).unit.chan = s.unit.chan := rfl
@[simp] theorem State.presentFirst_unit_tbl (s : State) (w : Cmd) : (s.presentFirst w).unit.tbl = s.unit.tbl := rfl
@[simp] theorem State.presentFirst_pending (s : State) (w : Cmd) : (s.presentFirst w).pending = ⟨0, w⟩ :: s.pending := rfl
@[simp] theorem State.presentFirst_resetIn (s : State) (w : Cmd) : (s.presentFirst w).resetIn = false := rfl
@[simp] theorem State.presentFirst_port (s : State) (w : Cmd) : (s.presentFirst w).port = s.port := rfl
@[simp] theorem State.presentFirst_rsp (s : State) (w : Cmd) : (s.presentFirst w).rsp = s.rsp := rfl

@[simp] theorem Chan.withIll_crcAcc (ch : Chan) : ch.withIll.crcAcc = ch.crcAcc := rfl
@[simp] theorem Chan.withIll_s1 (ch : Chan) : ch.withIll.s1 = ch.s1 := rfl
@[simp] theorem Chan.withIll_s2 (ch : Chan) : ch.withIll.s2 = ch.s2 := rfl
@[simp] theorem Chan.withIll_ill (ch : Chan) : ch.withIll.ill = true := rfl

end Sys2Proof.Machine
end

