-- ==== Sys2Proof/Laws/Ops.lean ====
section
/-! SUPPORT. For each shared operation, what it can do, said once. -/

namespace Sys2Proof.Machine

open Sys2Proof

theorem State.selected_eq_chanAt (s : State) : s.selected = s.chanAt s.port := rfl

/-- All `onSelected` can do: it continues with the registers of the issuing channel, or that channel does not exist. -/
theorem onSelected_cases (s : State) (f : Chan → State) :
    (∃ ch, s.chanAt s.port = some ch ∧ onSelected s f = .next (f ch)) ∨
      (s.chanAt s.port = none ∧ onSelected s f = .fault .noSuchChannel) := by
  cases h : s.chanAt s.port with
  | none =>
    refine .inr ⟨rfl, ?_⟩
    have h' : s.selected = none := h
    simp [onSelected, h']
  | some ch =>
    refine .inl ⟨ch, rfl, ?_⟩
    have h' : s.selected = some ch := h
    simp [onSelected, h']

theorem onSelected_of_chanAt {s : State} {ch : Chan} (h : s.chanAt s.port = some ch) (f : Chan → State) :
    onSelected s f = .next (f ch) := by
  rcases onSelected_cases s f with ⟨ch', h', e⟩ | ⟨h', _⟩
  · rw [h] at h'; cases h'; exact e
  · rw [h] at h'; cases h'

theorem onSelected_next {s t : State} {f : Chan → State} (h : onSelected s f = .next t) :
    ∃ ch, s.chanAt s.port = some ch ∧ t = f ch := by
  rcases onSelected_cases s f with ⟨ch, hc, e⟩ | ⟨_, e⟩
  · rw [e] at h; cases h; exact ⟨ch, hc, rfl⟩
  · rw [e] at h; cases h

/-- The channel written by `setChan`. -/
theorem State.setChan_chanAt_port {s : State} {ch : Chan} (h : s.chanAt s.port = some ch) (ch' : Chan) :
    (s.setChan ch').chanAt s.port = some ch' := by
  have hl : s.port < s.unit.chan.length := (List.getElem?_eq_some_iff.1 h).1
  simp [State.chanAt, hl]

/-- Every other channel. -/
theorem State.setChan_chanAt_other (s : State) (ch : Chan) {c : Nat} (h : c ≠ s.port) :
    (s.setChan ch).chanAt c = s.chanAt c := by
  simp [State.chanAt, List.getElem?_set_ne (Ne.symm h)]

@[simp] theorem State.silent_chanAt (s : State) (c : Nat) : s.silent.chanAt c = s.chanAt c := rfl
@[simp] theorem State.silent_entryAt (s : State) (v : Nat) : s.silent.entryAt v = s.entryAt v := rfl
@[simp] theorem State.respond_chanAt (s : State) (v : Word) (c : Nat) : (s.respond v).chanAt c = s.chanAt c := rfl
@[simp] theorem State.respond_entryAt (s : State) (v : Word) (u : Nat) : (s.respond v).entryAt u = s.entryAt u := rfl
@[simp] theorem State.setTbl_chanAt (s : State) (m : Memory) (c : Nat) : (s.setTbl m).chanAt c = s.chanAt c := rfl
@[simp] theorem State.setTbl_entryAt (s : State) (m : Memory) (v : Nat) :
    (s.setTbl m).entryAt v = Memory.read m v := rfl
@[simp] theorem State.setChan_entryAt (s : State) (ch : Chan) (v : Nat) :
    (s.setChan ch).entryAt v = s.entryAt v := rfl
@[simp] theorem State.accept_chanAt (s : State) (c : Nat) (rest : List Presented) (d : Nat) :
    (s.accept c rest).chanAt d = s.chanAt d := rfl
@[simp] theorem State.accept_entryAt (s : State) (c : Nat) (rest : List Presented) (v : Nat) :
    (s.accept c rest).entryAt v = s.entryAt v := rfl

theorem State.hasChannel_iff (s : State) (c : Nat) : s.hasChannel c = true ↔ ∃ ch, s.chanAt c = some ch := by
  simp only [State.hasChannel, State.chanAt, decide_eq_true_eq]
  exact ⟨fun h => ⟨_, List.getElem?_eq_getElem h⟩, fun ⟨_, h⟩ => (List.getElem?_eq_some_iff.1 h).1⟩

/-- All `runWord` can do. -/
theorem runWord_cases (w : Cmd) (s : State) :
    (∃ i, decode w = .ok i ∧ runWord w s = exec i s) ∨
      (∃ e, decode w = .error e ∧ runWord w s = raiseIllegalCommand s) := by
  cases h : decode w with
  | ok i => exact .inl ⟨i, rfl, by simp [runWord, h]⟩
  | error e => exact .inr ⟨e, rfl, by simp [runWord, h]⟩

/-- All a step that answers a next state can have done: the reset, nothing, or one presented word on a channel that
exists. -/
theorem step_next_cases {s t : State} (h : step s = .next t) :
    (s.resetIn = true ∧ t = s.takeReset) ∨
    (s.resetIn = false ∧ s.pending = [] ∧ t = s.idle) ∨
    (s.resetIn = false ∧ ∃ p rest, s.pending = p :: rest ∧ s.hasChannel p.chan = true ∧
      runWord p.word (s.accept p.chan rest) = .next t) := by
  unfold step oneStep at h
  split at h
  · rename_i hr
    cases h
    exact .inl ⟨hr, rfl⟩
  · rename_i hr
    have hr' : s.resetIn = false := by simpa using hr
    split at h
    · rename_i hp
      cases h
      exact .inr (.inl ⟨hr', hp, rfl⟩)
    · rename_i p rest hp
      unfold issue at h
      split at h
      · rename_i hc
        exact .inr (.inr ⟨hr', p, rest, hp, hc, h⟩)
      · cases h

/-- A property that holds at reset, and that every step, every presented word and every assertion of reset keep,
holds of every reachable state. -/
theorem Reachable.induct {P : State → Prop} (hstart : ∀ cfg, cfg.wf = true → P (State.resetWith cfg))
    (hstep : ∀ s t, P s → step s = .next t → P t)
    (hpresent : ∀ s c w, P s → c < s.cfg.nch → P (s.present c w))
    (hreset : ∀ s, P s → P s.assertReset) {s : State} (h : Reachable s) : P s := by
  induction h with
  | start cfg hc => exact hstart cfg hc
  | stepped _ h ih => exact hstep _ _ ih h
  | presented _ c w hc ih => exact hpresent _ c w ih hc
  | resetAsserted _ ih => exact hreset _ ih

theorem wordsOn_cons (c : Nat) (p : Presented) (ps : List Presented) :
    wordsOn c (p :: ps) = if p.chan = c then p.word :: wordsOn c ps else wordsOn c ps := by
  by_cases h : p.chan = c <;> simp [wordsOn, h]

theorem responsesOn_append (c : Nat) (rs qs : List Response) :
    responsesOn c (rs ++ qs) = responsesOn c rs ++ responsesOn c qs := by
  simp [responsesOn]

end Sys2Proof.Machine
end

