-- ==== Sys2Proof/Laws/Exec.lean ====
section
/-! SUPPORT. All that a command, a word and a step that takes a word can do where the table invariant holds, said once
against the pure channel function `chanExec` (20_memory.md R27). -/

namespace Sys2Proof.Machine

open Sys2Proof

/-- Under the table invariant a lookup returns `Entry` of its index. -/
theorem State.TableOk.lookup_eq_entry {s : State} (h : s.TableOk) (v : Byte) :
    (Memory.lookup s.unit.tbl v).1 = entry v := by
  cases hr : Memory.read s.unit.tbl v.toNat with
  | none => simp [Memory.lookup_miss hr]
  | some e =>
    have := h.2.1 _ (Memory.mem_of_read hr)
    rw [Memory.lookup_hit hr]
    simpa using this

/-- Every entry of the full table is valid and is `Entry` of its index. -/
theorem Memory.read_full (v : Byte) : Memory.read Memory.full v.toNat = some (entry v) := by
  have key : ∀ l : List Nat, v.toNat ∈ l →
      Memory.read (l.map fun v => (v, entry (BitVec.ofNat 8 v))) v.toNat = some (entry v) := by
    intro l hl
    induction l with
    | nil => simp at hl
    | cons a l ih =>
      simp only [List.map_cons, Memory.read_cons]
      by_cases h : a = v.toNat
      · simp [h]
      · rw [if_neg h]
        exact ih (by simpa [Ne.symm h] using hl)
  exact key _ (List.mem_range.2 v.isLt)

/-- A lookup keeps the table invariant. -/
theorem State.TableOk.lookup {s : State} (h : s.TableOk) (v : Byte) :
    (s.setTbl (Memory.lookup s.unit.tbl v).2).TableOk := by
  refine ⟨Memory.lookup_wf v h.1, fun p hp => ?_, fun he => ?_⟩
  · rcases Memory.mem_lookup hp with rfl | hp
    · simp
    · exact h.2.1 p hp
  · rw [State.setTbl_unit_tbl, h.2.2 he, Memory.lookup_hit (Memory.read_full v)]

/-- What a command on an existing channel answers and leaves. -/
theorem exec_of_chanAt (i : Instr) {s : State} {ch : Chan} (ht : s.TableOk) (hc : s.chanAt s.port = some ch) :
    ∃ t, exec i s = .next t ∧ t.chanAt s.port = some (chanExec ch i).1 ∧ OtherChannelsSame s t ∧ t.TableOk ∧
      OutsideSame s t ∧ t.rsp = (chanExec ch i).2.map (⟨s.port, ·⟩) ∧
      t.unit.chan.length = s.unit.chan.length := by
  have same : OutsideSame s s := ⟨rfl, rfl, rfl, rfl⟩
  have written (ch' : Chan) := State.setChan_chanAt_port hc ch'
  have others (ch' : Chan) (c : Nat) (h : c ≠ s.port) := State.setChan_chanAt_other s ch' h
  cases i <;>
    simp only [exec, execNop, execStatrd, execCrcinit, execCrcupd, execCrcget, execCrcgetb, execTblrd, execAdlinit,
      execAdlupd, execAdlget, execAdlgetb, onSelected_of_chanAt hc] <;>
    refine ⟨_, rfl, ?_⟩
  case nop => exact ⟨hc, fun _ _ => rfl, ht, same, rfl, rfl⟩
  case statrd => exact ⟨hc, fun _ _ => rfl, ht, same, rfl, rfl⟩
  case crcget => exact ⟨hc, fun _ _ => rfl, ht, same, rfl, rfl⟩
  case crcgetb => exact ⟨hc, fun _ _ => rfl, ht, same, rfl, rfl⟩
  case adlget => exact ⟨hc, fun _ _ => rfl, ht, same, rfl, rfl⟩
  case adlgetb => exact ⟨hc, fun _ _ => rfl, ht, same, rfl, rfl⟩
  case crcinit => exact ⟨written _, others _, ht, same, rfl, by simp⟩
  case adlinit => exact ⟨written _, others _, ht, same, rfl, by simp⟩
  case adlupd => exact ⟨written _, others _, ht, same, rfl, by simp⟩
  case tblrd v => exact ⟨hc, fun _ _ => rfl, ht.lookup v, same, by simp [ht.lookup_eq_entry, chanExec], rfl⟩
  case crcupd b =>
    refine ⟨?_, fun c h => State.setChan_chanAt_other (s.setTbl _) _ h, ht.lookup _, same, rfl, by simp⟩
    rw [State.silent_chanAt, ht.lookup_eq_entry]
    exact State.setChan_chanAt_port (s := s.setTbl _) hc _

/-- What a word just taken on an existing channel answers and leaves, legal or not. -/
theorem runWord_of_chanAt (w : Cmd) {s : State} {ch : Chan} (ht : s.TableOk) (hc : s.chanAt s.port = some ch) :
    ∃ t, runWord w s = .next t ∧ t.chanAt s.port = some (chanWord ch w).1 ∧ OtherChannelsSame s t ∧ t.TableOk ∧
      OutsideSame s t ∧ t.rsp = (chanWord ch w).2.map (⟨s.port, ·⟩) ∧
      t.unit.chan.length = s.unit.chan.length := by
  rcases runWord_cases w s with ⟨i, hd, e⟩ | ⟨e', hd, e⟩
  · rw [e]
    simp only [chanWord, hd]
    exact exec_of_chanAt i ht hc
  · rw [e]
    simp only [chanWord, hd, raiseIllegalCommand, onSelected_of_chanAt hc]
    exact ⟨_, rfl, State.setChan_chanAt_port hc _, fun c h => State.setChan_chanAt_other s _ h, ht,
      ⟨rfl, rfl, rfl, rfl⟩, rfl, by simp⟩

end Sys2Proof.Machine
end

