-- ==== Sys2Proof/Laws/HostSide.lean ====
section
/-! SUPPORT. The small lemmas of the host's side: lengths of what is fed and written, and the data of each chunk. -/

namespace Sys2Proof.Machine

open Sys2Proof

@[simp] theorem be4_length (r : Word) : (be4 r).length = 4 := rfl

@[simp] theorem ChunkType.bytes_length (t : ChunkType) : t.bytes.length = 4 := by cases t <;> rfl

theorem chunkCovered_length (t : ChunkType) (data : List Byte) : (chunkCovered t data).length = 4 + data.length := by
  simp [chunkCovered]

/-- The trailer is the last four bytes of the envelope. -/
theorem ZlibEnvelope.bytes_drop (z : ZlibEnvelope) : z.bytes.drop (2 + z.compressed.length) = z.trailer := by
  rw [ZlibEnvelope.bytes, Nat.add_comm]
  simp

theorem ZlibEnvelope.bytes_length (z : ZlibEnvelope) : z.bytes.length = 2 + z.compressed.length + 4 := by
  simp only [ZlibEnvelope.bytes, ZlibEnvelope.trailer, List.length_cons, List.length_append, be4_length]
  omega

@[simp] theorem Chunk.data_ihdr (fields : Vector Byte 13) : (Chunk.ihdr fields).data = fields.toList := rfl
@[simp] theorem Chunk.data_idat (z : ZlibEnvelope) : (Chunk.idat z).data = z.bytes := rfl
@[simp] theorem Chunk.data_iend : Chunk.iend.data = [] := rfl
@[simp] theorem Chunk.type_ihdr (fields : Vector Byte 13) : (Chunk.ihdr fields).type = .IHDR := rfl
@[simp] theorem Chunk.type_idat (z : ZlibEnvelope) : (Chunk.idat z).type = .IDAT := rfl
@[simp] theorem Chunk.type_iend : Chunk.iend.type = .IEND := rfl

end Sys2Proof.Machine
end

