-- ==== Sys2Proof/Laws/PerInstr.lean ====
section
/-! SUPPORT. Statements made per instruction. `OpcodeField`: the word of a command carries the `OPC` that
30_encoding.md R41 gives its row, and its `OPD` is as the row's format says (R39). -/

namespace Sys2Proof.Laws.OpcodeField

open Sys2Proof

/-- `OPC` and the constraint on `OPD`, row by row (R39, R41). -/
def Statement (i : Instr) : Prop :=
  formatOfOpcode (opc (encode i)).toNat ≠ none ∧
    (formatOfOpcode (opc (encode i)).toNat = some .N → opd (encode i) = 0#8) ∧
    (formatOfOpcode (opc (encode i)).toNat = some .K → (opd (encode i)).toNat < 4)

theorem nop : Statement .nop := by unfold Statement; decide
theorem statrd : Statement .statrd := by unfold Statement; decide
theorem crcinit : Statement .crcinit := by unfold Statement; decide
theorem crcupd (b : Byte) : Statement (.crcupd b) := by
  simp [Statement, encode, formatOfOpcode]
theorem crcget : Statement .crcget := by unfold Statement; decide
theorem crcgetb (k : Sel) : Statement (.crcgetb k) := by unfold Statement; revert k; decide
theorem tblrd (v : Byte) : Statement (.tblrd v) := by
  simp [Statement, encode, formatOfOpcode]
theorem adlinit : Statement .adlinit := by unfold Statement; decide
theorem adlupd (b : Byte) : Statement (.adlupd b) := by
  simp [Statement, encode, formatOfOpcode]
theorem adlget : Statement .adlget := by unfold Statement; decide
theorem adlgetb (k : Sel) : Statement (.adlgetb k) := by unfold Statement; revert k; decide

end Sys2Proof.Laws.OpcodeField
end

