-- ==== Sys2Proof/Tests/Slice0.lean ====
section
/-! SUPPORT. Tests, with expected results taken from spec/95_test_vectors.md and the rules, and one witness for each
statement that has hypotheses. -/

namespace Sys2Proof.Tests

open Sys2Proof Sys2Proof.Machine

/-- The next state, if there is one. -/
def nextOf : Host.Outcome State Fault Refusal → Option State
  | .next t => some t
  | .fault _ => none
  | .refused _ => none

/-- One channel with registers `ch`, the table `tbl`, nothing pending. -/
def oneChannel (ch : Chan) (tbl : Memory) : State :=
  { State.reset with unit := ⟨[ch], tbl⟩ }

/-- Two channels fresh from reset, a word pending on channel 1. -/
def twoChannels (w : Cmd) : State := (State.resetWith ⟨2, .lazy⟩).present 1 w

/-- The registers of channel 0 after a command on it. -/
def chanAfter (i : Instr) (ch : Chan) (tbl : Memory) : Option Chan :=
  (nextOf (exec i (oneChannel ch tbl))).bind fun t => t.chanAt 0

/-- The response of a command on channel 0. -/
def responseTo (i : Instr) (ch : Chan) (tbl : Memory) : Option Response :=
  (nextOf (exec i (oneChannel ch tbl))).bind (·.rsp)

/-- The table after a command on channel 0. -/
def tableAfter (i : Instr) (ch : Chan) (tbl : Memory) : Option Memory :=
  (nextOf (exec i (oneChannel ch tbl))).map (·.unit.tbl)

/-! Checks refuse ill-formed terms (30_encoding.md R42, 00_scope.md R6, 20_memory.md R23). -/

theorem test_check_refuses_unassigned_opcode : illegalReason 0x0200#16 = some .unassignedOpcode := by decide
theorem test_check_refuses_operand_of_format_N : illegalReason 0x1201#16 = some .operandNotZero := by decide
theorem test_check_refuses_wide_selector : illegalReason 0x1304#16 = some .selectorTooWide := by decide
theorem test_check_accepts_last_selector : legalWord 0x1303#16 = true := by decide
theorem test_check_refuses_no_channel : Config.wf ⟨0, .lazy⟩ = false := by decide
theorem test_check_refuses_unsorted_table : ¬ Memory.wf [(2, 0#32), (1, 0#32)] := by decide
theorem test_check_refuses_index_256 : ¬ Memory.wf [(256, 0#32)] := by decide

/-! Every command's word, written out from the patterns of R41. -/

theorem test_decode_nop : decode 0b0000000000000000#16 = .ok .nop := by decide
theorem test_decode_statrd : decode 0b0000000100000000#16 = .ok .statrd := by decide
theorem test_decode_crcinit : decode 0b0001000000000000#16 = .ok .crcinit := by decide
theorem test_decode_crcupd : decode 0b0001000111111111#16 = .ok (.crcupd 0xFF#8) := by decide
theorem test_decode_crcget : decode 0b0001001000000000#16 = .ok .crcget := by decide
theorem test_decode_crcgetb : decode 0b0001001100000010#16 = .ok (.crcgetb 2#2) := by decide
theorem test_decode_tblrd : decode 0b0001010000000001#16 = .ok (.tblrd 0x01#8) := by decide
theorem test_decode_adlinit : decode 0b0010000000000000#16 = .ok .adlinit := by decide
theorem test_decode_adlupd : decode 0b0010000110000000#16 = .ok (.adlupd 0x80#8) := by decide
theorem test_decode_adlget : decode 0b0010001000000000#16 = .ok .adlget := by decide
theorem test_decode_adlgetb : decode 0b0010001100000001#16 = .ok (.adlgetb 1#2) := by decide
theorem test_decode_rejects_neighbours :
    decode 0x0001#16 = .error .operandNotZero ∧ decode 0x1380#16 = .error .selectorTooWide ∧
      decode 0x2400#16 = .error .unassignedOpcode := by decide
theorem test_decodeTableWord : decodeTableWord 16 0x1149 = some (.crcupd 0x49#8) := by decide
theorem test_decodeTableWord_illegal : decodeTableWord 16 0x1201 = none := by decide

/-! Commands, on the vectors of 95_test_vectors.md sections 2, 3, 4 and 6. -/

theorem test_entry_B6 : entry 0xB6#8 = 0x220216B9#32 := by decide
theorem test_nop_unchanged :
    nextOf (exec .nop (oneChannel ⟨0x22FDE946#32, 0x62#16, 0x62#16, false⟩ [])) =
      some (oneChannel ⟨0x22FDE946#32, 0x62#16, 0x62#16, false⟩ []) := by decide
theorem test_statrd_set : responseTo .statrd ⟨0x22FDE946#32, 0x62#16, 0x62#16, true⟩ [] = some ⟨0, 1#32⟩ := by decide
theorem test_statrd_clear : responseTo .statrd ⟨0x22FDE946#32, 0x62#16, 0x62#16, false⟩ [] = some ⟨0, 0#32⟩ := by decide
theorem test_crcinit_keeps_ill :
    chanAfter .crcinit ⟨0x22FDE946#32, 0x62#16, 0x62#16, true⟩ [] =
      some ⟨0xFFFFFFFF#32, 0x62#16, 0x62#16, true⟩ := by decide
theorem test_crcupd_hit_uses_stored_entry :
    chanAfter (.crcupd 0x9A#8) ⟨0x12345678#32, 1#16, 0#16, false⟩ [(0xE2, 0x4E048354#32)] =
      some ⟨0x4E16B702#32, 1#16, 0#16, false⟩ := by decide
theorem test_crcupd_miss_fills :
    tableAfter (.crcupd 0x49#8) ⟨0xFFFFFFFF#32, 1#16, 0#16, false⟩ [(0xB5, 0xBB0B4703#32), (0xB7, 0x5505262F#32)] =
      some [(0xB5, 0xBB0B4703#32), (0xB6, 0x220216B9#32), (0xB7, 0x5505262F#32)] := by decide
theorem test_crcget : responseTo .crcget ⟨0x51BD9F7D#32, 1#16, 0#16, false⟩ [] = some ⟨0, 0xAE426082#32⟩ := by decide
theorem test_crcgetb_first : responseTo (.crcgetb 0#2) ⟨0xFEDCBA98#32, 1#16, 0#16, false⟩ [] = some ⟨0, 0x01#32⟩ := by decide
theorem test_crcgetb_third : responseTo (.crcgetb 2#2) ⟨0xFEDCBA98#32, 1#16, 0#16, false⟩ [] = some ⟨0, 0x45#32⟩ := by decide
theorem test_tblrd_answers : responseTo (.tblrd 0x80#8) Chan.atReset [] = some ⟨0, 0xEDB88320#32⟩ := by decide
theorem test_tblrd_zero_is_filled : tableAfter (.tblrd 0x00#8) Chan.atReset [] = some [(0, 0x00000000#32)] := by decide
theorem test_adlinit :
    chanAfter .adlinit ⟨0x22FDE946#32, 0x05FB#16, 0x1FEE#16, true⟩ [] =
      some ⟨0x22FDE946#32, 1#16, 0#16, true⟩ := by decide
theorem test_adlupd_largest :
    chanAfter (.adlupd 0xFF#8) ⟨0#32, 65520#16, 65520#16, false⟩ [] = some ⟨0#32, 254#16, 253#16, false⟩ := by decide
theorem test_adlupd_modulus :
    chanAfter (.adlupd 0xFF#8) ⟨0#32, 65265#16, 1#16, false⟩ [] = some ⟨0#32, 65520#16, 0#16, false⟩ := by decide
theorem test_adlget : responseTo .adlget ⟨0#32, 0x0127#16, 0x024D#16, false⟩ [] = some ⟨0, 0x024D0127#32⟩ := by decide
theorem test_adlgetb_second : responseTo (.adlgetb 1#2) ⟨0#32, 0x05FB#16, 0x1FEE#16, false⟩ [] = some ⟨0, 0xEE#32⟩ := by decide
theorem test_adlgetb_third : responseTo (.adlgetb 2#2) ⟨0#32, 0x05FB#16, 0x1FEE#16, false⟩ [] = some ⟨0, 0x05#32⟩ := by decide

/-! Steps. -/

/-- Section 6: an illegal word on channel 1 sets `ILL[1]` only. -/
theorem test_illegal_word :
    (nextOf (step (twoChannels 0x1201#16))).map (fun t => (t.unit, t.rsp)) =
      some (⟨[⟨0xFFFFFFFF#32, 1#16, 0#16, false⟩, ⟨0xFFFFFFFF#32, 1#16, 0#16, true⟩], []⟩, none) := by decide

/-- A word fetched right after reset is executed by the next step. -/
theorem test_withFetchWord :
    (nextOf (step (State.reset.withFetchWord 16 0x1149))).bind (·.chanAt 0) =
      some ⟨0x22FDE946#32, 1#16, 0#16, false⟩ := by decide

theorem test_reset_before_pending :
    nextOf (step (twoChannels 0x1201#16).assertReset) = some (State.resetWith ⟨2, .lazy⟩) := by decide

theorem test_reset_has_memory_wf : Memory.wf State.reset.unit.tbl := by decide

/-! The assembler (R46, R47), on lines of 95_test_vectors.md section 7. -/

theorem test_assemble_character : assembleLine "ch1: CRCUPD 'a'  ; idx 9E".toList = some (1, [0x1161#16]) := by decide
theorem test_assemble_string :
    assembleLine "CRCFEED \"IHDR\"".toList = some (0, [0x1149#16, 0x1148#16, 0x1144#16, 0x1152#16]) := by decide
theorem test_assemble_numbers :
    assembleLine "ADLFEED 0x00, 255 ; row".toList = some (0, [0x2100#16, 0x21FF#16]) := by decide
theorem test_assemble_empty_call : assembleLine "CRC32".toList = some (0, [0x1000#16, 0x1200#16]) := by decide
theorem test_assemble_rejects :
    assembleLine "CRCGETB 4".toList = none ∧ assembleLine "TBLRD 'a'".toList = none ∧
      assembleLine "CRCGET 0".toList = none := by decide

/-- Program P2 of section 7: the words for the source's 2x2 image. -/
theorem test_image_words :
    (imageCommands [[⟨0, 0, 255⟩, ⟨0, 255, 0⟩], [⟨255, 0, 0⟩, ⟨255, 255, 255⟩]]).map encode =
      [0x2000, 0x2100, 0x2100, 0x2100, 0x21FF, 0x2100, 0x21FF, 0x2100, 0x2100, 0x21FF, 0x2100, 0x2100, 0x21FF, 0x21FF,
        0x21FF, 0x2300, 0x2301, 0x2302, 0x2303] := by decide

/-- Program P1 of section 7: the words of an `IEND` chunk. -/
theorem test_chunk_words :
    (chunkCommands .IEND []).map encode =
      [0x1000, 0x1149, 0x1145, 0x114E, 0x1144, 0x1300, 0x1301, 0x1302, 0x1303] := by decide

/-- The illustration of section 7: the `IDAT` chunk of the 2x2 image, its Adler-32 trailer inside the data and its
CRC-32 after them. -/
def illustration : ZlibEnvelope :=
  { cmf := 0x08#8, flg := 0x1D#8,
    compressed := [0x01, 0x0E, 0x00, 0xF1, 0xFF, 0x00, 0x00, 0x00, 0xFF, 0x00, 0xFF, 0x00, 0x00, 0xFF, 0x00, 0x00, 0xFF,
      0xFF, 0xFF],
    image := [[⟨0, 0, 255⟩, ⟨0, 255, 0⟩], [⟨255, 0, 0⟩, ⟨255, 255, 255⟩]] }

theorem test_idat_chunk :
    illustration.bytes.length = 25 ∧ illustration.bytes.drop 21 = [0x1F, 0xEE, 0x05, 0xFB] ∧
      (Chunk.idat illustration).writtenAfterLength.drop 29 = [0x8A, 0x4C, 0xCD, 0x8A] := by decide +kernel

/-- Program P1: what is written after the length bytes of an `IEND` chunk. -/
theorem test_iend_chunk :
    Chunk.iend.writtenAfterLength = [0x49, 0x45, 0x4E, 0x44, 0xAE, 0x42, 0x60, 0x82] := by decide +kernel

/-! Witnesses: for each statement with hypotheses, a state and operands that meet them all. -/

/-- Channel 1 of two, with words pending on both channels. -/
def busy (ps : List Presented) : State := { State.resetWith ⟨2, .lazy⟩ with pending := ps, port := 1 }

/-- The first and the last of the neighbouring words of `NOP`, `CRCGETB` and `ADLGETB`. -/
theorem witness_neighbouring_words :
    legalWord 0x0001#16 = false ∧ legalWord 0x00FF#16 = false ∧ legalWord 0x1304#16 = false ∧
      legalWord 0x13FF#16 = false ∧ legalWord 0x2304#16 = false ∧ legalWord 0x23FF#16 = false := by decide

/-- Reset is not asserted in these states, and the words pending are the ones named. -/
theorem witness_busy (ps : List Presented) : (busy ps).resetIn = false ∧ (busy ps).pending = ps := ⟨rfl, rfl⟩

theorem witness_port_exists : (busy []).chanAt (busy []).port = some Chan.atReset := by decide

theorem witness_DecodingIsTotalAndIllegalWordsAreNamed :
    legalWord 0x14FF#16 = true ∧ illegalReason 0x0200#16 = some .unassignedOpcode ∧
      illegalReason 0x1201#16 = some .operandNotZero ∧ illegalReason 0x1304#16 = some .selectorTooWide ∧
      (busy []).chanAt (busy []).port = some Chan.atReset := by decide

theorem witness_StepRunsDecodedCommand :
    (twoChannels 0x1161#16).resetIn = false ∧ (twoChannels 0x1161#16).pending = ⟨1, 0x1161#16⟩ :: [] ∧
      (twoChannels 0x1161#16).chanAt 1 = some Chan.atReset ∧ decode 0x1161#16 = .ok (.crcupd 0x61#8) := by decide

theorem witness_WordOnMissingChannelFaults :
    (busy [⟨2, 0x0000#16⟩]).resetIn = false ∧ (busy [⟨2, 0x0000#16⟩]).pending = ⟨2, 0x0000#16⟩ :: [] ∧
      (busy [⟨2, 0x0000#16⟩]).chanAt 2 = none := by decide

theorem witness_IdleUnitDoesNothing : State.reset.resetIn = false ∧ State.reset.pending = [] := by decide

/-- Both policies, and the first and last channel of two. -/
theorem witness_ResetStateValues :
    (0 : Nat) < (⟨2, .lazy⟩ : Config).nch ∧ (1 : Nat) < (⟨2, .lazy⟩ : Config).nch ∧
      (⟨2, .lazy⟩ : Config).policy = .lazy ∧ (⟨2, .eager⟩ : Config).policy = .eager := by decide

theorem witness_AssertedResetLeavesResetState : (twoChannels 0x1161#16).assertReset.resetIn = true := by decide

theorem witness_InitialisedChannelIsFreshFromReset :
    (oneChannel ⟨5#32, 6#16, 7#16, false⟩ []).chanAt (oneChannel ⟨5#32, 6#16, 7#16, false⟩ []).port =
        some ⟨5#32, 6#16, 7#16, false⟩ ∧ 1 ≤ (⟨3, .eager⟩ : Config).nch := by decide

theorem witness_StatrdReadsIll :
    (oneChannel ⟨5#32, 6#16, 7#16, true⟩ []).chanAt 0 = some ⟨5#32, 6#16, 7#16, true⟩ ∧
      (oneChannel ⟨5#32, 6#16, 7#16, false⟩ []).chanAt 0 = some ⟨5#32, 6#16, 7#16, false⟩ := by decide

theorem witness_CrcinitPresetsAccumulator : (busy []).chanAt (busy []).port = some Chan.atReset := witness_port_exists

/-- A hit and a miss at the index of the byte. -/
theorem witness_CrcupdFoldsByte :
    (oneChannel Chan.atReset [(0xB6, 0x220216B9#32)]).chanAt 0 = some Chan.atReset ∧
      (oneChannel Chan.atReset [(0xB6, 0x220216B9#32)]).entryAt
        (Chan.atReset.crcAcc.extractLsb' 0 8 ^^^ 0x49#8).toNat = some 0x220216B9#32 ∧
      (oneChannel Chan.atReset []).entryAt (Chan.atReset.crcAcc.extractLsb' 0 8 ^^^ 0x49#8).toNat = none := by decide

theorem witness_CrcgetReadsComplement : (busy []).chanAt (busy []).port = some Chan.atReset := witness_port_exists
theorem witness_CrcgetbReadsByte : (busy []).chanAt (busy []).port = some Chan.atReset := witness_port_exists

theorem witness_TblrdReadsEntry :
    (oneChannel Chan.atReset [(0xB6, 0x220216B9#32)]).TableOk ∧
      (oneChannel Chan.atReset [(0xB6, 0x220216B9#32)]).entryAt 0xB6 = some 0x220216B9#32 ∧
      (oneChannel Chan.atReset [(0xB6, 0x220216B9#32)]).entryAt 0xFF = none := by decide

theorem witness_AdlinitPresetsSums : (busy []).chanAt (busy []).port = some Chan.atReset := witness_port_exists

/-- The largest legal sums with the largest byte, and registers above the legal range. -/
theorem witness_AdlupdAddsByte :
    (oneChannel ⟨0#32, 65520#16, 65520#16, false⟩ []).chanAt 0 = some ⟨0#32, 65520#16, 65520#16, false⟩ ∧
      (oneChannel ⟨0#32, 65535#16, 65535#16, false⟩ []).chanAt 0 = some ⟨0#32, 65535#16, 65535#16, false⟩ := by decide

theorem witness_AdlgetReadsSums : (busy []).chanAt (busy []).port = some Chan.atReset := witness_port_exists

/-- The four selectors, on a channel that exists. -/
theorem witness_AdlgetbReadsByte :
    (busy []).chanAt (busy []).port = some Chan.atReset ∧
      ∀ k : Sel, k = 0#2 ∨ k = 1#2 ∨ k = 2#2 ∨ k = 3#2 := by decide

theorem witness_ReadsWriteNothing : ∃ t, exec (.adlgetb 3#2) (busy []) = .next t := ⟨_, rfl⟩
theorem witness_ReadsWriteNothing_crcgetb : ∃ t, exec (.crcgetb 0#2) (busy []) = .next t := ⟨_, rfl⟩

theorem witness_EnginesAreIndependent :
    (∃ t, exec (.adlupd 0xFF#8) (busy []) = .next t) ∧ (∃ t, exec (.tblrd 0x00#8) (busy []) = .next t) ∧
      (busy []).chanAt 1 = some Chan.atReset := ⟨⟨_, rfl⟩, ⟨_, rfl⟩, by decide⟩

theorem witness_IllegalWordSetsOnlyIll :
    (twoChannels 0xFFFF#16).resetIn = false ∧ (twoChannels 0xFFFF#16).pending = ⟨1, 0xFFFF#16⟩ :: [] ∧
      (twoChannels 0xFFFF#16).chanAt 1 = some Chan.atReset ∧ legalWord 0xFFFF#16 = false ∧
      legalWord 0x23FF#16 = false ∧ legalWord 0x2303#16 = true ∧ (twoChannels 0x2303#16).chanAt 1 = some Chan.atReset := by
  decide

theorem witness_ResponseIsFixedByCommand :
    (∃ t, exec (.crcgetb 3#2) (busy []) = .next t ∧ t.rsp = some ⟨(busy []).port, 0#32⟩) ∧
      (∃ t, exec .statrd (busy []) = .next t ∧ t.rsp = some ⟨(busy []).port, 0#32⟩) ∧
      (∃ t, exec .adlinit (busy []) = .next t) ∧
      ∃ t, legalWord 0x1201#16 = false ∧ runWord 0x1201#16 (busy []) = .next t :=
  ⟨⟨_, rfl, by decide⟩, ⟨_, rfl, by decide⟩, ⟨_, rfl⟩, ⟨_, by decide, rfl⟩⟩

theorem witness_IllIsClearedOnlyByReset :
    ∃ t, (oneChannel ⟨0#32, 1#16, 0#16, true⟩ []).resetIn = false ∧
      step (oneChannel ⟨0#32, 1#16, 0#16, true⟩ []) = .next t ∧
      (oneChannel ⟨0#32, 1#16, 0#16, true⟩ []).chanAt 0 = some ⟨0#32, 1#16, 0#16, true⟩ := ⟨_, rfl, rfl, by decide⟩

theorem witness_IllChangesNoResult :
    Instr.crcupd 0x00#8 ≠ .statrd ∧ (busy []).chanAt (busy []).port = some Chan.atReset := by decide

theorem witness_ValidEntriesStay :
    ∃ t, ((oneChannel Chan.atReset [(0xB6, 0x220216B9#32)]).present 0 0x1400#16).resetIn = false ∧
      step ((oneChannel Chan.atReset [(0xB6, 0x220216B9#32)]).present 0 0x1400#16) = .next t ∧
      ((oneChannel Chan.atReset [(0xB6, 0x220216B9#32)]).present 0 0x1400#16).entryAt 0xB6 = some 0x220216B9#32 :=
  ⟨_, rfl, rfl, by decide⟩

/-- Each clause: nothing pending, `CRCUPD` on an invalid and on a valid entry, `TBLRD` at both ends of the index space,
and a word that asks for no entry. -/
theorem witness_StepFillsAtMostOneEntry :
    (∃ t, (busy []).resetIn = false ∧ (busy []).pending = [] ∧ step (busy []) = .next t) ∧
      (∃ t, step (twoChannels 0x1149#16) = .next t) ∧ decode 0x1149#16 = .ok (.crcupd 0x49#8) ∧
      (twoChannels 0x1149#16).chanAt 1 = some Chan.atReset ∧
      (twoChannels 0x1149#16).entryAt (crcIndex Chan.atReset.crcAcc 0x49#8).toNat = none ∧
      (∃ t, step ((oneChannel Chan.atReset [(0xB6, 0x220216B9#32)]).present 0 0x1149#16) = .next t) ∧
      (oneChannel Chan.atReset [(0xB6, 0x220216B9#32)]).entryAt (crcIndex Chan.atReset.crcAcc 0x49#8).toNat =
        some 0x220216B9#32 ∧
      (∃ t, step (twoChannels 0x1400#16) = .next t) ∧ decode 0x1400#16 = .ok (.tblrd 0x00#8) ∧
      (∃ t, step (twoChannels 0x14FF#16) = .next t) ∧ decode 0x14FF#16 = .ok (.tblrd 0xFF#8) ∧
      (∃ t, step (twoChannels 0x2161#16) = .next t) ∧ decode 0x2161#16 = .ok (.adlupd 0x61#8) :=
  ⟨⟨_, rfl, rfl, rfl⟩, ⟨_, rfl⟩, by decide, by decide, by decide, ⟨_, rfl⟩, by decide, ⟨_, rfl⟩, by decide, ⟨_, rfl⟩,
    by decide, ⟨_, rfl⟩, by decide⟩

/-- A reachable state in which entry `0x80` is valid, and a step from it. -/
theorem witness_TableInvariantsInReachableStates :
    ∃ s t, Reachable s ∧ s.entryAt 0x80 = some 0xEDB88320#32 ∧ s.resetIn = false ∧ step s = .next t :=
  ⟨_, _, .stepped (.presented (.start ⟨1, .lazy⟩ rfl) 0 0x1480#16 (by decide)) rfl, by decide, rfl, rfl⟩

theorem witness_LookupReturnsEntryInReachableStates :
    Reachable (State.resetWith ⟨1, .eager⟩) ∧ (State.resetWith ⟨1, .eager⟩).cfg.policy = .eager := ⟨.start _ rfl, rfl⟩

/-- Both sums reach the modulus exactly, and both stay one below it. -/
theorem witness_AdlerReductionIsOneSubtraction :
    (65266#16 : Half).toNat ≤ 65520 ∧ 65521 ≤ (65266#16 : Half).toNat + (0xFF#8 : Byte).toNat ∧
      (65265#16 : Half).toNat ≤ 65520 ∧ ¬ 65521 ≤ (65265#16 : Half).toNat + (0xFF#8 : Byte).toNat := by decide

theorem witness_AdlerSumsStayInRange :
    Reachable State.reset ∧ State.reset.chanAt 0 = some Chan.atReset := ⟨.start _ rfl, by decide⟩

theorem witness_StepKeepsInvariant :
    ∃ t, (busy [⟨1, 0x1161#16⟩]).Inv ∧ step (busy [⟨1, 0x1161#16⟩]) = .next t := ⟨_, by decide, rfl⟩

theorem witness_ResetHasInvariant : Config.wf ⟨1, .eager⟩ = true ∧ Config.wf ⟨2, .lazy⟩ = true := by decide

/-- The last port there is. -/
theorem witness_HostsKeepInvariant : (busy []).Inv ∧ 1 < (busy []).cfg.nch := by decide

theorem witness_EveryStepCompletes : (busy [⟨0, 0xFFFF#16⟩, ⟨1, 0x1161#16⟩]).Inv := by decide

theorem witness_CommandDependsOnItsChannelAlone :
    (oneChannel Chan.atReset []).TableOk ∧ (oneChannel Chan.atReset [(0xB6, 0x220216B9#32)]).TableOk ∧
      (oneChannel Chan.atReset [(0xB6, 0x220216B9#32)]).port = (oneChannel Chan.atReset []).port ∧
      (oneChannel Chan.atReset []).chanAt 0 = some Chan.atReset ∧
      (oneChannel Chan.atReset [(0xB6, 0x220216B9#32)]).chanAt 0 = some Chan.atReset := by decide

/-- No step, and as many as there are words. -/
theorem witness_MachineRefinesIndependentChannels :
    (busy [⟨0, 0x1161#16⟩, ⟨1, 0x1161#16⟩]).Inv ∧ (busy [⟨0, 0x1161#16⟩, ⟨1, 0x1161#16⟩]).resetIn = false ∧
      0 ≤ (busy [⟨0, 0x1161#16⟩, ⟨1, 0x1161#16⟩]).pending.length ∧
      2 ≤ (busy [⟨0, 0x1161#16⟩, ⟨1, 0x1161#16⟩]).pending.length ∧
      (busy [⟨0, 0x1161#16⟩, ⟨1, 0x1161#16⟩]).chanAt 1 = some Chan.atReset := by decide

theorem witness_ChannelResultsIgnoreInterleaving :
    ∃ p q, (busy [⟨0, 0x1161#16⟩, ⟨1, 0x1200#16⟩]).Inv ∧ (busy [⟨1, 0x1200#16⟩, ⟨0, 0x1201#16⟩]).Inv ∧
      (busy [⟨0, 0x1161#16⟩, ⟨1, 0x1200#16⟩]).resetIn = false ∧ (busy [⟨1, 0x1200#16⟩, ⟨0, 0x1201#16⟩]).resetIn = false ∧
      (busy [⟨0, 0x1161#16⟩, ⟨1, 0x1200#16⟩]).chanAt 1 = some Chan.atReset ∧
      (busy [⟨1, 0x1200#16⟩, ⟨0, 0x1201#16⟩]).chanAt 1 = some Chan.atReset ∧
      wordsOn 1 (busy [⟨0, 0x1161#16⟩, ⟨1, 0x1200#16⟩]).pending =
        wordsOn 1 (busy [⟨1, 0x1200#16⟩, ⟨0, 0x1201#16⟩]).pending ∧
      runTrace 2 (busy [⟨0, 0x1161#16⟩, ⟨1, 0x1200#16⟩]) = some p ∧
      runTrace 2 (busy [⟨1, 0x1200#16⟩, ⟨0, 0x1201#16⟩]) = some q :=
  ⟨_, _, by decide, by decide, rfl, rfl, by decide, by decide, by decide, rfl, rfl⟩

theorem witness_UpdatesFoldIntoAccumulator :
    (busy [⟨1, 0x1161#16⟩, ⟨0, 0x1000#16⟩, ⟨1, 0x0000#16⟩]).Inv ∧
      (busy [⟨1, 0x1161#16⟩, ⟨0, 0x1000#16⟩, ⟨1, 0x0000#16⟩]).chanAt 1 = some Chan.atReset ∧
      (wordsOn 1 (busy [⟨1, 0x1161#16⟩, ⟨0, 0x1000#16⟩, ⟨1, 0x0000#16⟩]).pending).filter writesCrc =
        [0x61#8].map (fun b => encode (.crcupd b)) ∧
      (busy [⟨1, 0x1000#16⟩, ⟨1, 0x1161#16⟩]).Inv ∧
      (busy [⟨1, 0x1000#16⟩, ⟨1, 0x1161#16⟩]).chanAt 1 = some Chan.atReset ∧
      (wordsOn 1 (busy [⟨1, 0x1000#16⟩, ⟨1, 0x1161#16⟩]).pending).filter writesCrc =
        encode .crcinit :: [0x61#8].map (fun b => encode (.crcupd b)) := by decide

theorem witness_CrcCallAnswersCrc32 :
    (busy (presentedOn 1 (Pseudo.crc32 []).expand)).Inv ∧
      (busy (presentedOn 1 (Pseudo.crc32 [0x61#8]).expand ++ [⟨0, 0xFFFF#16⟩])).Inv := by decide

theorem witness_CrcCallContinues :
    (busy (presentedOn 1 ((Pseudo.crc32 [0x61#8]).expand ++ (Pseudo.crcfeed [0x62#8]).expand ++ [.crcget]))).Inv := by
  decide

theorem witness_AdlerSumsHaveClosedForm :
    (busy [⟨1, 0x2000#16⟩, ⟨1, 0x1161#16⟩, ⟨1, 0x21FF#16⟩]).Inv ∧
      (busy [⟨1, 0x2000#16⟩, ⟨1, 0x1161#16⟩, ⟨1, 0x21FF#16⟩]).chanAt 1 = some Chan.atReset ∧
      (wordsOn 1 (busy [⟨1, 0x2000#16⟩, ⟨1, 0x1161#16⟩, ⟨1, 0x21FF#16⟩]).pending).filter writesAdler =
        encode .adlinit :: [0xFF#8].map (fun b => encode (.adlupd b)) := by decide

theorem witness_AdlerCallAnswersAdler32 :
    (busy (presentedOn 1 (Pseudo.adler32 []).expand)).Inv ∧
      (busy (presentedOn 1 (Pseudo.adler32 [0x61#8]).expand ++ [⟨0, 0xFFFF#16⟩])).Inv := by decide

theorem witness_EmptyCallsAnswerZeroAndOne : (busy []).chanAt (busy []).port = some Chan.atReset := witness_port_exists

theorem witness_EmissionIsBigEndian :
    (busy (presentedOn 1 Pseudo.emitcrc.expand)).Inv ∧ (busy (presentedOn 1 Pseudo.emitadl.expand)).Inv ∧
      (busy (presentedOn 1 Pseudo.emitadl.expand)).chanAt 1 = some Chan.atReset := by decide

theorem witness_ChunkCommandsEmitChunkCrc :
    (busy (presentedOn 1 (chunkCommands .IEND []))).Inv ∧ (busy (presentedOn 0 (chunkCommands .IHDR [0x00#8]))).Inv := by
  decide

theorem witness_ImageCommandsEmitAdler :
    (busy (presentedOn 1 (imageCommands [[⟨1, 2, 3⟩]]))).Inv ∧
      ∀ row ∈ ([[⟨1, 2, 3⟩]] : List (List Pixel)), row.length = 1 := by decide

/-- One chunk of each type. -/
theorem witness_ChunkIsWrittenWithEmittedCrc :
    (busy (presentedOn 1 Chunk.iend.commands)).Inv ∧ Chunk.iend.type = .IEND ∧
      (busy (presentedOn 1 (Chunk.ihdr (Vector.replicate 13 0x00#8)).commands)).Inv ∧
      (Chunk.ihdr (Vector.replicate 13 0x00#8)).type = .IHDR ∧
      (busy (presentedOn 1 (Chunk.idat illustration).commands)).Inv := by decide

theorem witness_EnvelopeEndsWithEmittedAdler :
    (busy (presentedOn 1 (imageCommands illustration.image))).Inv ∧
      (busy (presentedOn 0 (imageCommands ([] : List (List Pixel))))).Inv := by decide

end Sys2Proof.Tests
end

/-! The values after reset (10_state.md R21), the table invariants (R20) and the range of the Adler sums (R15): what
one step can do to the table and to the sums, then the reachable states by induction. -/

namespace Sys2Proof.Machine

open Sys2Proof

/-! The state right after reset. -/

@[simp] theorem State.resetWith_cfg (cfg : Config) : (State.resetWith cfg).cfg = cfg := rfl
@[simp] theorem State.resetWith_unit_chan (cfg : Config) :
    (State.resetWith cfg).unit.chan = List.replicate cfg.nch Chan.atReset := rfl
@[simp] theorem State.resetWith_unit_tbl (cfg : Config) :
    (State.resetWith cfg).unit.tbl = Memory.atReset cfg.policy := rfl

theorem State.resetWith_chanAt {cfg : Config} {c : Nat} (h : c < cfg.nch) :
    (State.resetWith cfg).chanAt c = some Chan.atReset := by
  simp [State.chanAt, h]

theorem State.resetWith_entryAt (cfg : Config) (v : Nat) :
    (State.resetWith cfg).entryAt v = Memory.read (Memory.atReset cfg.policy) v := rfl

/-- Settles O7: under `lazy` the table is empty, under `eager` it is the full one. -/
theorem resetStateValues : Obligations.ResetStateValues := by
  intro cfg
  refine ⟨by simp, fun c hc => State.resetWith_chanAt hc, fun hl v => ?_, fun he v => ?_⟩
  · rw [State.resetWith_entryAt, hl]
    exact Memory.read_nil v
  · rw [State.resetWith_entryAt, he]
    exact Memory.read_full v

/-! The table in one step. -/

/-- A lookup leaves valid entries as they are: only a miss writes, and it writes where nothing was valid. -/
theorem Memory.lookup_keeps_valid {m : List (Nat × Word)} {u : Nat} {e : Word} (v : Byte)
    (h : Memory.read m u = some e) : Memory.read (Memory.lookup m v).2 u = some e := by
  by_cases hu : u = v.toNat
  · rw [Memory.lookup_hit (hu ▸ h)]
    exact h
  · rw [Memory.lookup_read_other m v hu]
    exact h

/-- All a command can do to the table: `TBLRD` and `CRCUPD` look up the entry they demand (20_memory.md R26), and no
other command touches it. -/
theorem exec_tbl_cases {i : Instr} {s t : State} (h : exec i s = .next t) :
    (∃ v, i = .tblrd v ∧ t.unit.tbl = (Memory.lookup s.unit.tbl v).2) ∨
    (∃ b ch, i = .crcupd b ∧ s.chanAt s.port = some ch ∧
      t.unit.tbl = (Memory.lookup s.unit.tbl (crcIndex ch.crcAcc b)).2) ∨
    ((∀ b, i ≠ .crcupd b) ∧ (∀ v, i ≠ .tblrd v) ∧ t.unit.tbl = s.unit.tbl) := by
  cases i with
  | tblrd v => cases h; exact .inl ⟨v, rfl, rfl⟩
  | crcupd b =>
    obtain ⟨ch, hc, rfl⟩ := onSelected_next h
    exact .inr (.inl ⟨b, ch, rfl, hc, rfl⟩)
  | nop => cases h; exact .inr (.inr ⟨nofun, nofun, rfl⟩)
  | statrd | crcinit | crcget | crcgetb | adlinit | adlupd | adlget | adlgetb =>
    obtain ⟨ch, -, rfl⟩ := onSelected_next h
    exact .inr (.inr ⟨nofun, nofun, rfl⟩)

/-- An illegal word does not touch the table (60_exceptions.md R82). -/
theorem raiseIllegalCommand_tbl {s t : State} (h : raiseIllegalCommand s = .next t) :
    t.unit.tbl = s.unit.tbl := by
  obtain ⟨ch, -, rfl⟩ := onSelected_next h
  rfl

theorem exec_keeps_valid_entry {i : Instr} {s t : State} (h : exec i s = .next t) {v : Nat} {e : Word}
    (hv : s.entryAt v = some e) : t.entryAt v = some e := by
  unfold State.entryAt at *
  rcases exec_tbl_cases h with ⟨u, -, ht⟩ | ⟨b, ch, -, -, ht⟩ | ⟨-, -, ht⟩
  · rw [ht]; exact Memory.lookup_keeps_valid u hv
  · rw [ht]; exact Memory.lookup_keeps_valid _ hv
  · rw [ht]; exact hv

theorem runWord_keeps_valid_entry {w : Cmd} {s t : State} (h : runWord w s = .next t) {v : Nat} {e : Word}
    (hv : s.entryAt v = some e) : t.entryAt v = some e := by
  rcases runWord_cases w s with ⟨i, -, hr⟩ | ⟨_, -, hr⟩
  · exact exec_keeps_valid_entry (hr ▸ h) hv
  · rw [State.entryAt, raiseIllegalCommand_tbl (hr ▸ h)]
    exact hv

/-- A step that is not a reset leaves valid entries valid and unchanged (10_state.md R20 (b), (c)), from any state. -/
theorem step_keeps_valid_entry {s t : State} (hr : s.resetIn = false) (h : step s = .next t) {v : Nat} {e : Word}
    (hv : s.entryAt v = some e) : t.entryAt v = some e := by
  rcases step_next_cases h with ⟨hr', -⟩ | ⟨-, -, rfl⟩ | ⟨-, p, rest, -, -, hw⟩
  · simp [hr] at hr'
  · exact hv
  · exact runWord_keeps_valid_entry hw hv

/-! The table invariant in every reachable state. -/

/-- A valid entry lies in the index space and is `Entry` of its index (10_state.md R20 (a)). -/
theorem State.TableOk.entryAt_eq_entry {s : State} (h : s.TableOk) {v : Nat} {e : Word} (hv : s.entryAt v = some e) :
    v < 256 ∧ e = entry (BitVec.ofNat 8 v) := by
  obtain ⟨⟨-, hindex⟩, hentry, -⟩ := h
  have hmem := Memory.mem_of_read hv
  exact ⟨hindex _ hmem, hentry _ hmem⟩

/-- Every entry of the table at reset is `Entry` of its index, under either policy. -/
theorem Memory.atReset_entry {p : TablePolicy} {q : Nat × Word} (h : q ∈ Memory.atReset p) :
    q.2 = entry (BitVec.ofNat 8 q.1) := by
  cases p with
  | lazy => simp [Memory.atReset] at h
  | eager =>
    obtain ⟨v, -, rfl⟩ := List.mem_map.1 h
    rfl

/-- A state whose table is the one its policy has at reset meets the table invariant. -/
theorem State.tableOk_of_atReset {s : State} (h : s.unit.tbl = Memory.atReset s.cfg.policy) : s.TableOk := by
  unfold State.TableOk
  rw [h]
  refine ⟨Memory.atReset_wf _, fun q hq => Memory.atReset_entry hq, fun he => ?_⟩
  rw [he]
  rfl

theorem State.TableOk.step {s t : State} (hs : s.TableOk) (h : step s = .next t) : t.TableOk := by
  rcases step_next_cases h with ⟨-, rfl⟩ | ⟨-, -, rfl⟩ | ⟨-, p, rest, -, hp, hw⟩
  · exact State.tableOk_of_atReset rfl
  · exact hs
  · obtain ⟨ch, hc⟩ := (State.hasChannel_iff s p.chan).1 hp
    obtain ⟨t', ht', -, -, htbl, -⟩ := runWord_of_chanAt (s := s.accept p.chan rest) p.word hs hc
    cases hw.symm.trans ht'
    exact htbl

theorem Reachable.tableOk {s : State} (h : Reachable s) : s.TableOk :=
  h.induct (P := State.TableOk) (fun _ _ => State.tableOk_of_atReset rfl) (fun _ _ hs hstep => hs.step hstep)
    (fun _ _ _ hs _ => hs) (fun _ hs => hs)

/-- Settles O29: (a) is the table invariant, (b) and (c) hold for a step from any state. -/
theorem tableInvariantsInReachableStates : Obligations.TableInvariantsInReachableStates := fun _ hs =>
  ⟨fun _ _ hv => hs.tableOk.entryAt_eq_entry hv, fun _ hr hstep _ _ hv => step_keeps_valid_entry hr hstep hv⟩

/-! The range of the Adler sums (10_state.md R15). -/

/-- Both sums of one channel are reduced. -/
def Chan.AdlerInRange (ch : Chan) : Prop := ch.s1.toNat ≤ 65520 ∧ ch.s2.toNat ≤ 65520

theorem State.adlerOk_iff (s : State) : s.AdlerOk ↔ ∀ c ch, s.chanAt c = some ch → ch.AdlerInRange := by
  simp only [State.AdlerOk, State.chanAt, List.mem_iff_getElem?]
  exact ⟨fun h c ch hc => h ch ⟨c, hc⟩, fun h ch ⟨c, hc⟩ => h c ch hc⟩

theorem Chan.atReset_adlerInRange : Chan.atReset.AdlerInRange := by unfold Chan.AdlerInRange; decide

/-- A sum reduced modulo 65521 (41_adler32.md R65) fits the register and is in range. -/
theorem reduced_sum_le (x : Sum) : ((x % adlerMod).setWidth 16).toNat ≤ 65520 := by
  have hlt : (x % adlerMod).toNat < 65521 := Nat.mod_lt _ (by decide)
  rw [BitVec.toNat_setWidth]
  omega

theorem adlerS1_le (s1 : Half) (b : Byte) : (adlerS1 s1 b).toNat ≤ 65520 := reduced_sum_le _

theorem adlerS2_le (s2 n1 : Half) : (adlerS2 s2 n1).toNat ≤ 65520 := reduced_sum_le _

/-- Only `ADLINIT` and `ADLUPD` write the sums: the one presets them, the other reduces them. -/
theorem chanExec_adlerInRange {ch : Chan} (h : ch.AdlerInRange) (i : Instr) : (chanExec ch i).1.AdlerInRange := by
  cases i with
  | adlinit => exact Chan.atReset_adlerInRange
  | adlupd b => exact ⟨adlerS1_le _ _, adlerS2_le _ _⟩
  | nop | statrd | crcinit | crcupd | crcget | crcgetb | tblrd | adlget | adlgetb => exact h

theorem chanWord_adlerInRange {ch : Chan} (h : ch.AdlerInRange) (w : Cmd) : (chanWord ch w).1.AdlerInRange := by
  unfold chanWord
  split
  · exact chanExec_adlerInRange h _
  · exact h

theorem State.adlerOk_of_atReset {s : State} {n : Nat} (h : s.unit.chan = List.replicate n Chan.atReset) :
    s.AdlerOk := by
  intro ch hch
  rw [h] at hch
  rw [List.eq_of_mem_replicate hch]
  exact Chan.atReset_adlerInRange

/-- The table invariant is needed only to say what the step does through `chanWord`. -/
theorem State.AdlerOk.step {s t : State} (hs : s.AdlerOk) (htbl : s.TableOk) (h : step s = .next t) : t.AdlerOk := by
  rcases step_next_cases h with ⟨-, rfl⟩ | ⟨-, -, rfl⟩ | ⟨-, p, rest, -, hp, hw⟩
  · exact State.adlerOk_of_atReset (State.takeReset_unit_chan s)
  · exact hs
  · rw [State.adlerOk_iff] at hs ⊢
    obtain ⟨ch, hc⟩ := (State.hasChannel_iff s p.chan).1 hp
    obtain ⟨t', ht', hown, hothers, -⟩ := runWord_of_chanAt (s := s.accept p.chan rest) p.word htbl hc
    cases hw.symm.trans ht'
    intro c ch' hc'
    by_cases hcp : c = p.chan
    · subst hcp
      cases hc'.symm.trans hown
      exact chanWord_adlerInRange (hs _ ch hc) _
    · rw [hothers c hcp] at hc'
      exact hs c ch' hc'

theorem Reachable.adlerOk {s : State} (h : Reachable s) : s.AdlerOk := by
  induction h with
  | start cfg _ => exact State.adlerOk_of_atReset (State.resetWith_unit_chan cfg)
  | stepped hs hstep ih => exact ih.step hs.tableOk hstep
  | presented _ _ _ _ ih => exact ih
  | resetAsserted _ ih => exact ih

/-- Settles O35, by induction on how the state was reached. -/
theorem adlerSumsStayInRange : Obligations.AdlerSumsStayInRange := fun s c ch hs hc =>
  s.adlerOk_iff.1 hs.adlerOk c ch hc

end Sys2Proof.Machine

/-! Decoding (30_encoding.md R41, R42): a row of the opcode map selects the legal words of its opcode and no other word,
so the rows and the prose of R42 agree; the encoder's word selects the row of its command. -/

namespace Sys2Proof

/-! The fields of a word. -/

theorem opc_toNat (w : Cmd) : (opc w).toNat = w.toNat / 256 := by
  have := w.isLt
  simp only [opc, BitVec.extractLsb'_toNat, Nat.shiftRight_eq_div_pow]
  omega

theorem opd_toNat (w : Cmd) : (opd w).toNat = w.toNat % 256 := by
  simp [opd]

theorem word_and_word (o d o' d' : Byte) : word o d &&& word o' d' = word (o &&& o') (d &&& d') :=
  BitVec.and_append

theorem word_inj {o d o' d' : Byte} : word o d = word o' d' ↔ o = o' ∧ d = d' := by
  refine ⟨fun h => ?_, fun ⟨ho, hd⟩ => by rw [ho, hd]⟩
  exact ⟨by simpa using congrArg opc h, by simpa using congrArg opd h⟩

/-! The rows and the formats of R39. -/

/-- The bits of `OPD` that a format wants zero (R39). -/
def Format.opdMask : Format → Byte
  | .N => 0xFF#8
  | .B => 0x00#8
  | .K => 0xFC#8

/-- What R42 calls a word of the format with one of those bits set; format `B` has no such word. -/
def Format.reason : Format → Illegal
  | .N | .B => .operandNotZero
  | .K => .selectorTooWide

theorem byte_and_ones (d : Byte) : d &&& 0xFF#8 = d := BitVec.and_allOnes

theorem and_selMask_eq_zero (d : Byte) : d &&& 0xFC#8 = 0#8 ↔ d.toNat < 4 := by
  revert d; decide

/-- Every row has a format, and fixes all of `OPC` and the bits of `OPD` that its format wants zero. -/
theorem format_of_mem_rows {r : Row} (hr : r ∈ rows) :
    ∃ f, formatOfOpcode (opc r.mtch).toNat = some f ∧ r.mtch = word (opc r.mtch) 0#8 ∧
      r.mask = word 0xFF#8 f.opdMask := by
  have hrows : ∀ r ∈ rows, r.mtch = word (opc r.mtch) 0#8 ∧
      (formatOfOpcode (opc r.mtch).toNat).map (fun f => word 0xFF#8 f.opdMask) = some r.mask := by decide
  obtain ⟨hmtch, hmask⟩ := hrows r hr
  obtain ⟨f, hf, hmask⟩ := Option.map_eq_some_iff.1 hmask
  exact ⟨f, hf, hmtch, hmask.symm⟩

/-- The rows have every opcode that has a format. -/
theorem formatOfOpcode_eq_none {o : Byte} (h : ∀ r ∈ rows, opc r.mtch ≠ o) : formatOfOpcode o.toNat = none := by
  have hne : ∀ r ∈ rows, ¬ o.toNat = (opc r.mtch).toNat := fun r hr e => h r hr (BitVec.eq_of_toNat_eq e.symm)
  simp [rows, opc] at hne
  simp [formatOfOpcode, hne]

theorem illegalReason_of_no_format {w : Cmd} (h : formatOfOpcode (opc w).toNat = none) :
    illegalReason w = some .unassignedOpcode := by
  rw [opc_toNat] at h
  simp [illegalReason, h]

/-- The prose of R42 for a word whose opcode has format `f`. -/
theorem illegalReason_of_format {w : Cmd} {f : Format} (h : formatOfOpcode (opc w).toNat = some f) :
    illegalReason w = if opd w &&& f.opdMask = 0#8 then none else some f.reason := by
  rw [opc_toNat] at h
  cases f with
  | N => simp [illegalReason, h, Format.opdMask, Format.reason, ← opd_toNat, byte_and_ones, BitVec.toNat_eq]
  | B => simp [illegalReason, h, Format.opdMask]
  | K => simp [illegalReason, h, Format.opdMask, Format.reason, ← opd_toNat, and_selMask_eq_zero]

/-- Selection on a word's fields, for a row laid out as R41 and R39 lay out every row. -/
theorem Row.selects_iff {r : Row} {o : Byte} {f : Format} (hmtch : r.mtch = word o 0#8)
    (hmask : r.mask = word 0xFF#8 f.opdMask) (w : Cmd) :
    r.selects w = true ↔ opc w = o ∧ opd w &&& f.opdMask = 0#8 :=
  calc r.selects w = true
      ↔ word (opc w) (opd w) &&& word 0xFF#8 f.opdMask = word o 0#8 := by
        rw [word_opc_opd, ← hmask, ← hmtch]
        exact beq_iff_eq
    _ ↔ opc w = o ∧ opd w &&& f.opdMask = 0#8 := by rw [word_and_word, word_inj, byte_and_ones]

/-- A row selects the words of its opcode that the prose of R42 does not call illegal, and no other word. -/
theorem Row.selects_iff_legal {r : Row} (hr : r ∈ rows) (w : Cmd) :
    r.selects w = true ↔ opc r.mtch = opc w ∧ illegalReason w = none := by
  obtain ⟨f, hf, hmtch, hmask⟩ := format_of_mem_rows hr
  rw [Row.selects_iff hmtch hmask, eq_comm (a := opc w)]
  exact and_congr_right fun ho => by simp [illegalReason_of_format (ho ▸ hf)]

/-! The row of a word. -/

theorem exists_row_of_legal {w : Cmd} (h : illegalReason w = none) : ∃ r ∈ rows, r.selects w = true := by
  by_contra hno
  have hopc : ∀ r ∈ rows, opc r.mtch ≠ opc w := fun r hr ho => hno ⟨r, hr, (Row.selects_iff_legal hr w).2 ⟨ho, h⟩⟩
  rw [illegalReason_of_no_format (formatOfOpcode_eq_none hopc)] at h
  cases h

theorem filter_selects_of_illegal {w : Cmd} {e : Illegal} (h : illegalReason w = some e) :
    (rows.filter fun r => r.selects w) = [] := by
  refine List.filter_eq_nil_iff.2 fun r hr hsel => ?_
  rw [((Row.selects_iff_legal hr w).1 hsel).2] at h
  cases h

/-- Two rows that select one word agree on it wherever both fix a bit. -/
theorem Row.overlap_of_selects {r q : Row} {w : Cmd} (hr : r.selects w = true) (hq : q.selects w = true) :
    r.mask &&& q.mask &&& (r.mtch ^^^ q.mtch) = 0#16 := by
  have hr' : w &&& r.mask = r.mtch := beq_iff_eq.1 hr
  have hq' : w &&& q.mask = q.mtch := beq_iff_eq.1 hq
  rw [← hr', ← hq']
  have hbit : ∀ x a b : Bool, (a && b && ((x && a) ^^ (x && b))) = false := by decide
  ext i hi
  simpa using hbit w[i] r.mask[i] q.mask[i]

theorem filter_selects_length_le_one (w : Cmd) : (rows.filter fun r => r.selects w).length ≤ 1 := by
  have hdisj := rows_disjoint.filter fun r => r.selects w
  have hsel : ∀ p ∈ rows.filter (·.selects w), p.selects w = true := fun p hp => (List.mem_filter.1 hp).2
  generalize rows.filter (fun r => r.selects w) = l at *
  rcases l with _ | ⟨r, _ | ⟨q, l⟩⟩
  · simp
  · simp
  · exact absurd (Row.overlap_of_selects (hsel r (by simp)) (hsel q (by simp)))
      (List.rel_of_pairwise_cons hdisj List.mem_cons_self)

/-- The row that selects a word is the only one. -/
theorem filter_selects_of_selects {r : Row} {w : Cmd} (hr : r ∈ rows) (hsel : r.selects w = true) :
    (rows.filter fun r => r.selects w) = [r] := by
  have hmem : r ∈ rows.filter fun r => r.selects w := List.mem_filter.2 ⟨hr, hsel⟩
  obtain ⟨q, hq⟩ := List.length_eq_one_iff.1 (Nat.le_antisymm (filter_selects_length_le_one w)
    (List.length_pos_of_mem hmem))
  rw [hq] at hmem ⊢
  rw [List.mem_singleton.1 hmem]

/-! The decoder. -/

theorem decode_of_selects {r : Row} {w : Cmd} (hr : r ∈ rows) (hsel : r.selects w = true) :
    decode w = .ok (r.build w) := by
  have hfind : rows.find? (fun r => r.selects w) = some r := by
    rw [← List.head?_filter, filter_selects_of_selects hr hsel]
    rfl
  simp [decode, hfind]

/-- The decoder's name for the reason is the one the prose of R42 gives. -/
theorem rejection_of_illegal {w : Cmd} {e : Illegal} (h : illegalReason w = some e) : rejection w = e := by
  unfold rejection
  cases hfind : rows.find? (fun r => opc r.mtch == opc w) with
  | none =>
    have hopc : ∀ r ∈ rows, opc r.mtch ≠ opc w := by simpa using hfind
    rw [illegalReason_of_no_format (formatOfOpcode_eq_none hopc)] at h
    exact Option.some.inj h
  | some r =>
    have ho : opc r.mtch = opc w := by simpa using List.find?_some hfind
    obtain ⟨f, hf, -, hmask⟩ := format_of_mem_rows (List.mem_of_find?_eq_some hfind)
    have hreason : f.reason = e := by
      rw [illegalReason_of_format (ho ▸ hf)] at h
      split at h
      · cases h
      · exact Option.some.inj h
    simp only [← hreason, hmask]
    cases f <;> rfl

theorem decode_of_illegal {w : Cmd} {e : Illegal} (h : illegalReason w = some e) : decode w = .error e := by
  have hfind : rows.find? (fun r => r.selects w) = none := by
    rw [← List.head?_filter, filter_selects_of_illegal h]
    rfl
  simp [decode, hfind, rejection_of_illegal h]

theorem legalWord_iff (w : Cmd) : legalWord w = true ↔ illegalReason w = none := by
  simp [legalWord]

theorem legalWord_eq_false_iff (w : Cmd) : legalWord w = false ↔ ∃ e, illegalReason w = some e := by
  rw [legalWord, Option.isNone_eq_false_iff, Option.isSome_iff_exists]

theorem decode_of_byte_row {r : Row} (hr : r ∈ rows) {o : Byte} (hmtch : r.mtch = word o 0#8)
    (hmask : r.mask = word 0xFF#8 Format.B.opdMask) (b : Byte) : decode (word o b) = .ok (r.build (word o b)) :=
  decode_of_selects hr ((Row.selects_iff hmtch hmask _).2 ⟨opc_word o b, BitVec.and_zero⟩)

/-- Decoding undoes encoding. -/
theorem decode_encode (i : Instr) : decode (encode i) = .ok i := by
  cases i with
  | nop | statrd | crcinit | crcget | adlinit | adlget => rfl
  | crcgetb k | adlgetb k => revert k; decide
  | crcupd b => exact (decode_of_byte_row (List.mem_of_getElem? (i := 3) rfl) rfl rfl b).trans (by simp)
  | tblrd v => exact (decode_of_byte_row (List.mem_of_getElem? (i := 6) rfl) rfl rfl v).trans (by simp)
  | adlupd b => exact (decode_of_byte_row (List.mem_of_getElem? (i := 8) rfl) rfl rfl b).trans (by simp)

end Sys2Proof

/-! Taking a word (30_encoding.md R42, 60_exceptions.md R82). -/

namespace Sys2Proof.Machine

open Sys2Proof

theorem runWord_of_decode {w : Cmd} {i : Instr} (h : decode w = .ok i) (s : State) : runWord w s = exec i s := by
  simp [runWord, h]

theorem runWord_of_illegal {w : Cmd} {e : Illegal} (h : illegalReason w = some e) (s : State) :
    runWord w s = raiseIllegalCommand s := by
  simp [runWord, decode_of_illegal h]

/-- Settles O3: a legal word is selected by the row of its opcode, which no other row overlaps; an illegal one
by none. -/
theorem decodingIsTotalAndIllegalWordsAreNamed : Obligations.DecodingIsTotalAndIllegalWordsAreNamed := by
  intro w
  refine ⟨fun hlegal => ?_, fun e he => ⟨filter_selects_of_illegal he, decode_of_illegal he, fun s ch hc => ?_⟩⟩
  · obtain ⟨r, hr, hsel⟩ := exists_row_of_legal ((legalWord_iff w).1 hlegal)
    exact ⟨by rw [filter_selects_of_selects hr hsel]; rfl, r.build w, decode_of_selects hr hsel⟩
  · have hrun : runWord w s = .next (s.setChan ch.withIll).silent :=
      (runWord_of_illegal he s).trans (onSelected_of_chanAt hc _)
    exact ⟨_, hrun, State.setChan_chanAt_port hc _, fun c h => State.setChan_chanAt_other s _ h, fun _ => rfl, rfl,
      rfl, rfl, rfl, rfl⟩

/-! Responses (30_encoding.md R43). -/

/-- A command gives one response on the issuing channel, or none, as R43 lists it. -/
theorem exec_next_rsp {i : Instr} {s t : State} (h : exec i s = .next t) :
    (responds i = true ∧ ∃ d, t.rsp = some ⟨s.port, d⟩) ∨ (responds i = false ∧ t.rsp = none) := by
  cases i with
  | nop => cases h; exact .inr ⟨rfl, rfl⟩
  | tblrd v => cases h; exact .inl ⟨rfl, _, rfl⟩
  | statrd | crcget | crcgetb | adlget | adlgetb =>
    obtain ⟨ch, -, rfl⟩ := onSelected_next h
    exact .inl ⟨rfl, _, rfl⟩
  | crcinit | crcupd | adlinit | adlupd =>
    obtain ⟨ch, -, rfl⟩ := onSelected_next h
    exact .inr ⟨rfl, rfl⟩

/-- A byte read answers a byte with zeros above. -/
theorem exec_byteRead_rsp {i : Instr} {k : Sel} {s t : State} (hi : i = .crcgetb k ∨ i = .adlgetb k)
    (h : exec i s = .next t) : ∃ b, t.rsp = some ⟨s.port, zext32 b⟩ := by
  rcases hi with rfl | rfl
  all_goals
    obtain ⟨ch, -, rfl⟩ := onSelected_next h
    exact ⟨_, rfl⟩

theorem exec_statrd_rsp {s t : State} {ch : Chan} (h : exec .statrd s = .next t) (hc : s.chanAt s.port = some ch) :
    t.rsp = some ⟨s.port, statusWord ch⟩ := by
  cases (onSelected_of_chanAt hc _).symm.trans h
  rfl

theorem zext32_toNat_lt (b : Byte) : (zext32 b).toNat < 256 := by
  rw [zext32, BitVec.toNat_setWidth]
  omega

theorem statusWord_toNat (ch : Chan) : (statusWord ch).toNat = if ch.ill = true then 1 else 0 := by
  unfold statusWord
  split <;> rfl

theorem raiseIllegalCommand_rsp {s t : State} (h : raiseIllegalCommand s = .next t) : t.rsp = none := by
  obtain ⟨ch, -, rfl⟩ := onSelected_next h
  rfl

/-- Settles O24, from what one command can answer; an illegal word is taken without a response. -/
theorem responseIsFixedByCommand : Obligations.ResponseIsFixedByCommand := by
  refine ⟨fun i s t h => ⟨?_, ?_, fun k d hi hd => ?_, fun ch d hi hc hd => ?_⟩, fun w s t hw h => ?_⟩
  · rcases exec_next_rsp h with ⟨-, hd⟩ | ⟨hi, -⟩
    · exact fun _ => hd
    · simp [hi]
  · rcases exec_next_rsp h with ⟨hi, -⟩ | ⟨-, hn⟩
    · simp [hi]
    · exact fun _ => hn
  · obtain ⟨b, hb⟩ := exec_byteRead_rsp hi h
    cases hd.symm.trans hb
    exact zext32_toNat_lt b
  · subst hi
    cases hd.symm.trans (exec_statrd_rsp h hc)
    exact statusWord_toNat ch
  · obtain ⟨e, he⟩ := (legalWord_eq_false_iff w).1 hw
    exact raiseIllegalCommand_rsp (runWord_of_illegal he s ▸ h)

/-! Emission (30_encoding.md R48). -/

/-- A step that takes a word on an existing channel runs the word there. -/
theorem step_of_pending {s : State} {p : Presented} {rest : List Presented} {ch : Chan} (hr : s.resetIn = false)
    (hp : s.pending = p :: rest) (hc : s.chanAt p.chan = some ch) :
    step s = runWord p.word (s.accept p.chan rest) := by
  simp [step, oneStep, hr, hp, issue, (s.hasChannel_iff p.chan).2 ⟨ch, hc⟩]

theorem runTrace_succ {s t : State} (h : step s = .next t) (k : Nat) :
    runTrace (k + 1) s = (runTrace k t).map fun p => (t.rsp.toList ++ p.1, p.2) := by
  simp [runTrace, h]

/-- Commands that only read one channel, presented there in a row: their answers in order, and the unit unchanged.
`read k` is the command and `answer k` its response. -/
theorem runTrace_reads {α : Type} {read : α → Instr} {answer : α → Word} {c : Nat} {ch : Chan}
    (hread : ∀ k s, s.chanAt s.port = some ch → exec (read k) s = .next (s.respond (answer k)))
    (ks : List α) {s : State} {rest : List Presented} (hr : s.resetIn = false) (hc : s.chanAt c = some ch)
    (hp : s.pending = presentedOn c (ks.map read) ++ rest) :
    ∃ t, runTrace ks.length s = some (ks.map fun k => ⟨c, answer k⟩, t) ∧ t.unit = s.unit ∧ t.pending = rest := by
  induction ks generalizing s with
  | nil => exact ⟨s, rfl, rfl, hp⟩
  | cons k ks ih =>
    have hstep : step s = .next ((s.accept c (presentedOn c (ks.map read) ++ rest)).respond (answer k)) := by
      rw [step_of_pending (p := ⟨c, encode (read k)⟩) hr hp hc, runWord_of_decode (decode_encode _)]
      exact hread k _ hc
    obtain ⟨t, htrace, hunit, hrest⟩ := ih (s := (s.accept c _).respond (answer k)) hr hc rfl
    exact ⟨t, by rw [List.length_cons, runTrace_succ hstep, htrace]; rfl, hunit, hrest⟩

/-- The four byte selectors of a big-endian result, in the order of R48. -/
def emissionOrder : List Sel := [0#2, 1#2, 2#2, 3#2]

theorem emitcrc_expand : Pseudo.emitcrc.expand = emissionOrder.map .crcgetb := rfl

theorem emitadl_expand : Pseudo.emitadl.expand = emissionOrder.map .adlgetb := rfl

theorem emissionOrder_map_be4At (r : Word) : emissionOrder.map (be4At r) = be4 r := rfl

@[simp] theorem zext32_setWidth (b : Byte) : (zext32 b).setWidth 8 = b := by
  simp [zext32]

/-- Byte reads in emission order emit the big-endian form of the result they read. -/
theorem runTrace_emission {read : Sel → Instr} {r : Word} {c : Nat} {ch : Chan}
    (hread : ∀ k s, s.chanAt s.port = some ch → exec (read k) s = .next (s.respond (zext32 (be4At r k))))
    {s : State} {rest : List Presented} (hr : s.resetIn = false) (hc : s.chanAt c = some ch)
    (hp : s.pending = presentedOn c (emissionOrder.map read) ++ rest) :
    ∃ rs t, runTrace 4 s = some (rs, t) ∧ t.unit = s.unit ∧ t.pending = rest ∧
      rs.map (·.chan) = [c, c, c, c] ∧ rs.map (·.data.setWidth 8) = be4 r := by
  obtain ⟨t, htrace, hunit, hrest⟩ := runTrace_reads hread emissionOrder hr hc hp
  refine ⟨_, t, htrace, hunit, hrest, rfl, ?_⟩
  rw [← emissionOrder_map_be4At, List.map_map]
  simp [Function.comp_def]

/-- The Adler-32 result of R62 is `s2` above `s1`. -/
theorem adlerResult_eq_append (s1 s2 : Half) : adlerResult s1 s2 = s2 ++ s1 := by
  rw [← BitVec.setWidth_eq (s2 ++ s1), BitVec.setWidth_append_eq_shiftLeft_setWidth_or]
  rfl

/-- Settles O49: both are byte reads in emission order, of the CRC-32 and of the Adler-32 result. -/
theorem emissionIsBigEndian : Obligations.EmissionIsBigEndian := by
  intro s c ch rest _ hr hc
  refine ⟨fun hp => ?_, fun hp => ?_⟩
  · rw [emitcrc_expand] at hp
    exact runTrace_emission (read := .crcgetb) (fun k s h => onSelected_of_chanAt h _) hr hc hp
  · rw [emitadl_expand] at hp
    rw [← adlerResult_eq_append]
    exact runTrace_emission (read := .adlgetb) (fun k s h => onSelected_of_chanAt h _) hr hc hp

end Sys2Proof.Machine

/-! The run of a schedule (20_memory.md R33 to R35), and what it makes of an accumulator (40_crc32.md R55). -/

namespace Sys2Proof.Machine

open Sys2Proof

/-! A run of presented words. -/

/-- All a step does that takes a word on an existing channel, under the table invariant: the word acts as `chanWord`
says, on its channel alone. -/
theorem step_takes_word {s : State} {p : Presented} {rest : List Presented} {ch : Chan} (htbl : s.TableOk)
    (hr : s.resetIn = false) (hp : s.pending = p :: rest) (hc : s.chanAt p.chan = some ch) :
    ∃ t, step s = .next t ∧ t.TableOk ∧ t.resetIn = false ∧ t.pending = rest ∧
      t.unit.chan.length = s.unit.chan.length ∧ t.rsp = (chanWord ch p.word).2.map (⟨p.chan, ·⟩) ∧
      t.chanAt p.chan = some (chanWord ch p.word).1 ∧ ∀ c, c ≠ p.chan → t.chanAt c = s.chanAt c := by
  obtain ⟨t, hrun, hown, hothers, htbl', ⟨-, hpending, hreset, -⟩, hrsp, hlen⟩ :=
    runWord_of_chanAt (s := s.accept p.chan rest) p.word htbl hc
  exact ⟨t, (step_of_pending hr hp hc).trans hrun, htbl', hreset.trans hr, hpending, hlen, hrsp, hown, hothers⟩

/-- The response of one word is seen on its own channel and on no other. -/
theorem responsesOn_own (c : Nat) (o : Option Word) : responsesOn c (o.map (⟨c, ·⟩)).toList = o.toList := by
  cases o <;> simp [responsesOn]

theorem responsesOn_other {c d : Nat} (h : d ≠ c) (o : Option Word) :
    responsesOn c (o.map (⟨d, ·⟩)).toList = [] := by
  cases o <;> simp [responsesOn, h]

/-- The words `ps` at the head of the schedule, taken one by one, on channels there are: every channel answers and
ends as it does when run alone on its own words (20_memory.md R27, R35). -/
theorem runTrace_schedule (ps : List Presented) {s : State} {rest : List Presented} (htbl : s.TableOk)
    (hr : s.resetIn = false) (hp : s.pending = ps ++ rest) (hports : ∀ p ∈ ps, p.chan < s.unit.chan.length) :
    ∃ rs t, runTrace ps.length s = some (rs, t) ∧ t.pending = rest ∧ t.resetIn = false ∧ t.TableOk ∧
      ∀ c ch, s.chanAt c = some ch →
        responsesOn c rs = (chanRun ch (wordsOn c ps)).1 ∧ t.chanAt c = some (chanRun ch (wordsOn c ps)).2 := by
  induction ps generalizing s with
  | nil => exact ⟨[], s, rfl, hp, hr, htbl, fun c ch hc => ⟨rfl, hc⟩⟩
  | cons p ps ih =>
    have hc := List.getElem?_eq_getElem (hports p List.mem_cons_self)
    obtain ⟨t, hstep, htbl', hr', hp', hlen, hrsp, hown, hothers⟩ := step_takes_word htbl hr hp hc
    obtain ⟨rs, u, htrace, hrest, hreset, htbl'', hchan⟩ :=
      ih htbl' hr' hp' (fun q hq => hlen ▸ hports q (List.mem_cons_of_mem p hq))
    refine ⟨t.rsp.toList ++ rs, u, by simp [runTrace_succ hstep, htrace], hrest, hreset, htbl'', fun c d hd => ?_⟩
    rw [responsesOn_append, wordsOn_cons, hrsp]
    by_cases h : p.chan = c
    · subst h
      cases hd.symm.trans hc
      obtain ⟨hrs, hu⟩ := hchan _ _ hown
      rw [responsesOn_own, hrs, hu, if_pos rfl]
      exact ⟨rfl, rfl⟩
    · rw [responsesOn_other h, if_neg h]
      exact hchan c d ((hothers c (Ne.symm h)).trans hd)

/-- All the words that are pending, from a state with the invariant. -/
theorem State.Inv.runTrace_pending {s : State} (h : s.Inv) (hr : s.resetIn = false) :
    ∃ rs t, runTrace s.pending.length s = some (rs, t) ∧ t.pending = [] ∧ t.resetIn = false ∧ t.TableOk ∧
      ∀ c ch, s.chanAt c = some ch →
        responsesOn c rs = (chanRun ch (wordsOn c s.pending)).1 ∧
        t.chanAt c = some (chanRun ch (wordsOn c s.pending)).2 := by
  obtain ⟨⟨-, hchannels⟩, -, htbl, hports, -⟩ := h
  exact runTrace_schedule s.pending htbl hr (List.append_nil _).symm (fun p hp => hchannels ▸ hports p hp)

/-! The accumulator of one channel (10_state.md R12). -/

/-- What one word on its channel makes of `CRC_ACC`. -/
def crcAccAfter (a : Word) (w : Cmd) : Word :=
  match decode w with
  | .ok .crcinit => crcInit
  | .ok (.crcupd b) => crcStep a b
  | _ => a

theorem crcAccAfter_crcinit (a : Word) : crcAccAfter a (encode .crcinit) = crcInit := by
  simp [crcAccAfter, decode_encode]

theorem crcAccAfter_crcupd (a : Word) (b : Byte) : crcAccAfter a (encode (.crcupd b)) = crcStep a b := by
  simp [crcAccAfter, decode_encode]

/-- `CRCINIT` and `CRCUPD` are the only writers of `CRC_ACC`. -/
theorem crcAccAfter_of_not_writesCrc {w : Cmd} (h : writesCrc w = false) (a : Word) : crcAccAfter a w = a := by
  cases hd : decode w with
  | error e => simp [crcAccAfter, hd]
  | ok i =>
    cases i with
    | crcinit | crcupd => simp [writesCrc, hd] at h
    | nop | statrd | crcget | crcgetb | tblrd | adlinit | adlupd | adlget | adlgetb => simp [crcAccAfter, hd]

theorem chanWord_crcAcc (ch : Chan) (w : Cmd) : (chanWord ch w).1.crcAcc = crcAccAfter ch.crcAcc w := by
  unfold chanWord crcAccAfter
  cases decode w with
  | error e => rfl
  | ok i => cases i <;> rfl

theorem chanRun_crcAcc (ch : Chan) (ws : List Cmd) :
    (chanRun ch ws).2.crcAcc = ws.foldl crcAccAfter ch.crcAcc := by
  induction ws generalizing ch with
  | nil => rfl
  | cons w ws ih => exact (ih _).trans (by rw [chanWord_crcAcc]; rfl)

/-- Words that do not write `CRC_ACC` may be left out of a fold. -/
theorem foldl_crcAccAfter_filter (a : Word) (ws : List Cmd) :
    (ws.filter writesCrc).foldl crcAccAfter a = ws.foldl crcAccAfter a := by
  rw [List.foldl_filter]
  congr
  funext a w
  cases h : writesCrc w with
  | true => rfl
  | false => exact (crcAccAfter_of_not_writesCrc h a).symm

/-- Updates are the fold of R55. -/
theorem foldl_crcAccAfter_crcupd (a : Word) (bs : List Byte) :
    (bs.map fun b => encode (.crcupd b)).foldl crcAccAfter a = crcFold a bs := by
  simp only [List.foldl_map, crcAccAfter_crcupd]
  rfl

/-- Only the writers among a channel's words decide the accumulator it ends with. -/
theorem chanRun_crcAcc_of_writers {ws writers : List Cmd} (h : ws.filter writesCrc = writers) (ch : Chan) :
    (chanRun ch ws).2.crcAcc = writers.foldl crcAccAfter ch.crcAcc := by
  rw [chanRun_crcAcc, ← foldl_crcAccAfter_filter, h]

/-- Settles O43: the run gives the channel what its own words give it, and of those only the writers of `CRC_ACC`
decide the accumulator. -/
theorem updatesFoldIntoAccumulator : Obligations.UpdatesFoldIntoAccumulator := by
  intro s c ch bs hinv hr hc
  obtain ⟨rs, t, htrace, -, -, -, hchan⟩ := hinv.runTrace_pending hr
  obtain ⟨-, hown⟩ := hchan c ch hc
  refine ⟨fun hupd => ⟨rs, t, htrace, ?_⟩, fun hcall => ?_⟩
  · rw [hown, Option.map_some, chanRun_crcAcc_of_writers hupd, foldl_crcAccAfter_crcupd]
  · refine ⟨rs, t, _, htrace, onSelected_of_chanAt (s := { t with port := c }) hown _, ?_⟩
    rw [State.respond_rsp, chanRun_crcAcc_of_writers hcall, List.foldl_cons, crcAccAfter_crcinit,
      foldl_crcAccAfter_crcupd]
    rfl

end Sys2Proof.Machine

/-! The CRC-32 commands (40_crc32.md R50 to R54), the table entries (R58) and the bit-serial form (R57). -/

namespace Sys2Proof

/-! Words of format `B` and `K` by their number (30_encoding.md R38, R39). -/

/-- A word as its `OPC` shifted above its `OPD` (R38). -/
theorem word_eq_or (o d : Byte) : word o d = o.setWidth 16 <<< 8 ||| d.setWidth 16 := by
  rw [← BitVec.setWidth_eq (word o d)]
  exact BitVec.setWidth_append_eq_shiftLeft_setWidth_or

theorem setWidth_opdOfSel (k : Sel) : (opdOfSel k).setWidth 16 = k.setWidth 16 := by
  revert k; decide

/-- An opcode of format `K` with a number above 3 (R42). -/
theorem legalWord_eq_false_of_wide_selector {w : Cmd} (hopc : formatOfOpcode (w.toNat / 256) = some .K)
    (hopd : 4 ≤ w.toNat % 256) : legalWord w = false := by
  simp [legalWord, illegalReason, hopc, Nat.not_lt.2 hopd]

end Sys2Proof

namespace Sys2Proof.Machine

open Sys2Proof

/-! What a lookup returns, and the operands of the CRC-32 commands. -/

/-- The two cases of R26: the valid entry, or `Entry` of the index. -/
theorem Memory.lookup_fst_cases (m : List (Nat × Word)) (v : Byte) :
    Memory.read m v.toNat = some (Memory.lookup m v).1 ∨
      (Memory.read m v.toNat = none ∧ (Memory.lookup m v).1 = entry v) := by
  cases h : Memory.read m v.toNat with
  | none => exact .inr ⟨rfl, by rw [Memory.lookup_miss h]⟩
  | some e => exact .inl (by rw [Memory.lookup_hit h])

/-- The index of an update is the low byte of the accumulator XOR the byte (R51). -/
theorem crcIndex_eq (a : Word) (b : Byte) : crcIndex a b = a.extractLsb' 0 8 ^^^ b :=
  calc crcIndex a b
      = (a ^^^ zext32 b).setWidth 8 &&& BitVec.allOnes 8 := BitVec.setWidth_and
    _ = a.setWidth 8 ^^^ b := by rw [BitVec.and_allOnes, BitVec.setWidth_xor, zext32_setWidth]
    _ = a.extractLsb' 0 8 ^^^ b := by rw [BitVec.setWidth_eq_extractLsb' (by decide)]

theorem crcResult_eq_not (a : Word) : crcResult a = ~~~a := BitVec.xor_allOnes

theorem zext32_extractLsb' (r : Word) (n : Nat) : zext32 (r.extractLsb' n 8) = r >>> n &&& 0xFF#32 := by
  apply BitVec.eq_of_toNat_eq
  simp only [zext32, BitVec.toNat_setWidth, BitVec.extractLsb'_toNat, BitVec.toNat_and, BitVec.toNat_ushiftRight,
    BitVec.reduceToNat, Nat.and_two_pow_sub_one_eq_mod _ 8]
  omega

/-- Byte `k` of a big-endian form stands `24 - 8 * k` bits up (R9). -/
theorem be4At_eq_extractLsb' (r : Word) (k : Sel) : be4At r k = r.extractLsb' (24 - 8 * k.toNat) 8 := by
  have hk : k = 0#2 ∨ k = 1#2 ∨ k = 2#2 ∨ k = 3#2 := by revert k; decide
  rcases hk with rfl | rfl | rfl | rfl <;> rfl

/-- Settles O12: one write to the channel's registers. -/
theorem crcinitPresetsAccumulator : Obligations.CrcinitPresetsAccumulator := by
  refine ⟨decode_encode .crcinit, fun s ch hc => ⟨_, onSelected_of_chanAt hc _, ?_⟩⟩
  exact ⟨State.setChan_chanAt_port hc _, fun c h => State.setChan_chanAt_other s _ h, fun _ => rfl, rfl, rfl, rfl, rfl,
    rfl⟩

/-- Settles O14: XOR with all ones is the complement. -/
theorem crcgetReadsComplement : Obligations.CrcgetReadsComplement :=
  ⟨decode_encode .crcget, fun s ch hc => ⟨_, onSelected_of_chanAt hc _, by rw [State.respond_rsp, crcResult_eq_not],
    rfl, rfl, rfl, rfl, rfl⟩⟩

/-- Settles O13: the update is one lookup at the index of R51 and one write to the channel's registers. -/
theorem crcupdFoldsByte : Obligations.CrcupdFoldsByte := by
  refine ⟨fun b => word_eq_or 0x11#8 b ▸ decode_encode (.crcupd b), fun s ch b hc => ?_⟩
  rw [← crcIndex_eq]
  refine ⟨_, _, onSelected_of_chanAt hc _, Memory.lookup_fst_cases _ _, ?_, Memory.lookup_read _ _,
    fun _ hv => Memory.lookup_read_other _ _ hv, fun c h => ?_, rfl, rfl, rfl, rfl, rfl⟩
  · exact State.setChan_chanAt_port (s := s.setTbl _) hc _
  · exact State.setChan_chanAt_other (s.setTbl _) _ h

/-- Settles O15: byte `k` of the big-endian form is the result shifted right by `24 - 8 * k`. -/
theorem crcgetbReadsByte : Obligations.CrcgetbReadsByte := by
  refine ⟨fun k => ?_, fun w hlo hhi => ?_, fun s ch k hc => ?_⟩
  · rw [← setWidth_opdOfSel]
    exact word_eq_or 0x13#8 _ ▸ decode_encode (.crcgetb k)
  · have hopc : w.toNat / 256 = 0x13 := by omega
    exact legalWord_eq_false_of_wide_selector (by rw [hopc]; rfl) (by omega)
  · refine ⟨_, onSelected_of_chanAt hc _, ?_, rfl, rfl, rfl, rfl, rfl⟩
    rw [State.respond_rsp, be4At_eq_extractLsb', zext32_extractLsb']
    rfl

/-- Settles O16: what is read is what the lookup returns; no channel is needed. -/
theorem tblrdReadsEntry : Obligations.TblrdReadsEntry :=
  ⟨fun v => word_eq_or 0x14#8 v ▸ decode_encode (.tblrd v), fun s v => ⟨_, _, rfl,
    Memory.lookup_fst_cases s.unit.tbl v, fun htbl => htbl.lookup_eq_entry v, rfl, Memory.lookup_read _ _,
    fun _ hu => Memory.lookup_read_other _ _ hu, rfl, rfl, rfl, rfl, rfl⟩⟩

/-! The table entries and the feedback register. -/

/-- One clock: shift, and add the polynomial if the bit shifted out is 1 (R25). -/
theorem entryStep_eq (x : Word) :
    entryStep x = (if x.getLsbD 0 then crcPoly else 0#32) ^^^ x >>> 1 := by
  rw [entryStep, BitVec.and_one_eq_setWidth_ofBool_getLsbD]
  cases x.getLsbD 0 <;> simp

theorem entryStep_xor (x y : Word) : entryStep (x ^^^ y) = entryStep x ^^^ entryStep y := by
  simp only [entryStep_eq, BitVec.ushiftRight_xor_distrib, BitVec.getLsbD_xor]
  have hfeedback : ∀ p q : Bool, (if (p ^^ q) then crcPoly else 0#32) =
      (if p then crcPoly else 0#32) ^^^ (if q then crcPoly else 0#32) := by decide
  rw [hfeedback]
  ac_rfl

theorem entryLoop_xor (n : Nat) (x y : Word) : entryLoop n (x ^^^ y) = entryLoop n x ^^^ entryLoop n y := by
  induction n generalizing x y with
  | zero => rfl
  | succ n ih => rw [entryLoop, entryStep_xor, ih]; rfl

theorem entry_xor (u v : Byte) : entry (u ^^^ v) = entry u ^^^ entry v := by
  rw [entry, BitVec.setWidth_xor, entryLoop_xor]
  rfl

/-- A clock only shifts a register whose bit 0 is 0. -/
theorem entryStep_of_bit0_zero {x : Word} (h : x.getLsbD 0 = false) : entryStep x = x >>> 1 := by
  rw [entryStep_eq, h]
  exact BitVec.zero_xor

/-- `n` clocks only shift a register whose low `n` bits are 0. -/
theorem entryLoop_of_low_bits_zero {n : Nat} {x : Word} (h : ∀ i < n, x.getLsbD i = false) :
    entryLoop n x = x >>> n := by
  induction n generalizing x with
  | zero => simp [entryLoop]
  | succ n ih =>
    have hshifted : ∀ i < n, (x >>> 1).getLsbD i = false := fun i hi => by simpa using h (1 + i) (by omega)
    rw [entryLoop, entryStep_of_bit0_zero (h 0 n.succ_pos), ih hshifted, ← BitVec.shiftRight_add, Nat.add_comm]

/-- What distinctness comes down to by linearity: a check of 256 entries. -/
theorem eq_zero_of_entry_topByte : ∀ w : Byte, (entry w).extractLsb' 24 8 = 0#8 → w = 0#8 := by decide

theorem entry_topByte_injective {u v : Byte} (h : (entry u).extractLsb' 24 8 = (entry v).extractLsb' 24 8) :
    u = v := by
  apply BitVec.xor_eq_zero_iff.1
  apply eq_zero_of_entry_topByte
  rw [entry_xor, BitVec.extractLsb'_xor, h, BitVec.xor_self]

/-- Settles O32: the clocks are linear over XOR, and no byte but 0 has an entry whose top byte is 0. -/
theorem entryProperties : Obligations.EntryProperties :=
  ⟨by decide, by decide, entry_xor, fun u v h => entry_topByte_injective (by rw [h]),
    fun u v h => entry_topByte_injective h⟩

/-- With a byte XORed in, the low byte of a register is the index of R51 and the part above is unchanged. -/
theorem xor_byte_eq_index_xor_high (a : Word) (b : Byte) :
    a ^^^ zext32 b = zext32 (crcIndex a b) ^^^ (a >>> 8 <<< 8) := by
  rw [crcIndex_eq]
  ext i hi
  by_cases h : i < 8
  · simp [zext32, h, BitVec.getLsbD_eq_getElem hi]
  · have hi' : 8 + (i - 8) = i := by omega
    simp [zext32, h, hi', BitVec.getLsbD_eq_getElem hi, Bool.xor_comm]

/-- Settles O33: the register with the byte in splits into its index, which eight clocks turn into the table entry, and
the part above, which they only shift. -/
theorem tableUpdateIsBitSerial : Obligations.TableUpdateIsBitSerial := by
  intro a b
  have hhigh : entryLoop 8 (a >>> 8 <<< 8) = a >>> 8 := by
    rw [entryLoop_of_low_bits_zero fun i hi => by simp [hi]]
    ext i hi
    simpa using BitVec.lt_of_getLsbD
  calc crcStep a b = entryLoop 8 (zext32 (crcIndex a b)) ^^^ entryLoop 8 (a >>> 8 <<< 8) := by rw [hhigh]; rfl
    _ = crcStepSerial a b := by rw [← entryLoop_xor, ← xor_byte_eq_index_xor_high]; rfl

end Sys2Proof.Machine

/-! The Adler-32 commands (41_adler32.md R60 to R63), their reduction (R66), and the closed form of the sums (R67). -/

namespace Sys2Proof.Machine

open Sys2Proof

/-! The sums and the result as exact integers. -/

/-- A reduced sum fits the register, so reduction is that of exact integers. -/
theorem reduced_sum_toNat (x : Sum) : ((x % adlerMod).setWidth 16).toNat = x.toNat % 65521 := by
  have hmod : (x % adlerMod).toNat = x.toNat % 65521 := rfl
  rw [BitVec.toNat_setWidth, hmod]
  omega

/-- R61: the 17 bits of R65 hold the exact sum. -/
theorem adlerS1_toNat (s1 : Half) (b : Byte) : (adlerS1 s1 b).toNat = (s1.toNat + b.toNat) % 65521 := by
  rw [adlerS1, reduced_sum_toNat, BitVec.toNat_add, BitVec.toNat_setWidth, BitVec.toNat_setWidth]
  omega

theorem adlerS2_toNat (s2 n1 : Half) : (adlerS2 s2 n1).toNat = (s2.toNat + n1.toNat) % 65521 := by
  rw [adlerS2, reduced_sum_toNat, BitVec.toNat_add, BitVec.toNat_setWidth, BitVec.toNat_setWidth]
  omega

/-- `s2` stands above the 16 bits of `s1` (R62). -/
theorem adlerResult_toNat (s1 s2 : Half) : (adlerResult s1 s2).toNat = s2.toNat * 65536 + s1.toNat := by
  rw [adlerResult_eq_append, BitVec.toNat_append, ← Nat.shiftLeft_add_eq_or_of_lt s1.isLt, Nat.shiftLeft_eq]

theorem zext32_be4At_toNat (r : Word) (k : Sel) :
    (zext32 (be4At r k)).toNat = r.toNat / 2 ^ (24 - 8 * k.toNat) % 256 := by
  rw [be4At_eq_extractLsb', zext32, BitVec.toNat_setWidth, BitVec.extractLsb'_toNat, Nat.shiftRight_eq_div_pow]
  omega

/-! The sums of one channel (10_state.md R13, R14) among any words. -/

/-- `(A_S1, A_S2)`. -/
def Chan.adlerSums (ch : Chan) : Half × Half := (ch.s1, ch.s2)

/-- What one word on its channel makes of the sums. -/
def adlerSumsAfter (p : Half × Half) (w : Cmd) : Half × Half :=
  match decode w with
  | .ok .adlinit => (adlerS1Init, adlerS2Init)
  | .ok (.adlupd b) => adlStep p b
  | _ => p

theorem adlerSumsAfter_adlinit (p : Half × Half) :
    adlerSumsAfter p (encode .adlinit) = (adlerS1Init, adlerS2Init) := by
  simp [adlerSumsAfter, decode_encode]

theorem adlerSumsAfter_adlupd (p : Half × Half) (b : Byte) : adlerSumsAfter p (encode (.adlupd b)) = adlStep p b := by
  simp [adlerSumsAfter, decode_encode]

/-- `ADLINIT` and `ADLUPD` are the only writers of the sums. -/
theorem adlerSumsAfter_of_not_writesAdler {w : Cmd} (h : writesAdler w = false) (p : Half × Half) :
    adlerSumsAfter p w = p := by
  cases hd : decode w with
  | error e => simp [adlerSumsAfter, hd]
  | ok i =>
    cases i with
    | adlinit | adlupd => simp [writesAdler, hd] at h
    | nop | statrd | crcinit | crcupd | crcget | crcgetb | tblrd | adlget | adlgetb => simp [adlerSumsAfter, hd]

theorem chanWord_adlerSums (ch : Chan) (w : Cmd) : (chanWord ch w).1.adlerSums = adlerSumsAfter ch.adlerSums w := by
  unfold chanWord adlerSumsAfter
  cases decode w with
  | error e => rfl
  | ok i => cases i <;> rfl

/-- Registers `read` that every word updates by `after` and that only the words of `writes` change: a run leaves in
them the fold over its writers. -/
theorem chanRun_eq_foldl_writers {α : Type} {read : Chan → α} {after : α → Cmd → α} {writes : Cmd → Bool}
    (hword : ∀ ch w, read (chanWord ch w).1 = after (read ch) w) (hskip : ∀ w, writes w = false → ∀ a, after a w = a)
    (ch : Chan) (ws : List Cmd) : read (chanRun ch ws).2 = (ws.filter writes).foldl after (read ch) := by
  induction ws generalizing ch with
  | nil => rfl
  | cons w ws ih =>
    rw [chanRun, ih, hword]
    cases hw : writes w with
    | true => rw [List.filter_cons_of_pos hw, List.foldl_cons]
    | false => rw [List.filter_cons_of_neg (by simp [hw]), hskip w hw]

/-- An `ADLINIT` and updates among any other words leave the fold of R68 from the initial sums. -/
theorem chanRun_adlerSums_of_call {ws : List Cmd} {bs : List Byte}
    (h : ws.filter writesAdler = encode .adlinit :: bs.map (fun b => encode (.adlupd b))) (ch : Chan) :
    (chanRun ch ws).2.adlerSums = adlFold (adlerS1Init, adlerS2Init) bs := by
  rw [chanRun_eq_foldl_writers chanWord_adlerSums (fun _ => adlerSumsAfter_of_not_writesAdler), h, List.foldl_cons,
    adlerSumsAfter_adlinit, List.foldl_map]
  simp only [adlerSumsAfter_adlupd]
  rfl

/-! The closed form (R67): reduction commutes with addition, so every reduction but the last can be left out. -/

theorem adlFold_fst_toNat (bs : List Byte) {p : Half × Half} (h : p.1.toNat ≤ 65520) :
    (adlFold p bs).1.toNat = (p.1.toNat + byteSum bs) % 65521 := by
  induction bs generalizing p with
  | nil => exact (Nat.mod_eq_of_lt (Nat.lt_succ_of_le h)).symm
  | cons b bs ih =>
    calc (adlFold p (b :: bs)).1.toNat
        = ((adlerS1 p.1 b).toNat + byteSum bs) % 65521 := ih (p := adlStep p b) (adlerS1_le p.1 b)
      _ = (p.1.toNat + byteSum (b :: bs)) % 65521 := by
        rw [adlerS1_toNat, Nat.mod_add_mod, Nat.add_assoc, byteSum]

/-- Every update adds the first sum to the second, so `n` updates add it `n` times. -/
theorem adlFold_snd_toNat (bs : List Byte) {p : Half × Half} (h : p.2.toNat ≤ 65520) :
    (adlFold p bs).2.toNat = (p.2.toNat + bs.length * p.1.toNat + weightedByteSum bs) % 65521 := by
  induction bs generalizing p with
  | nil => simp [adlFold, weightedByteSum, Nat.mod_eq_of_lt (Nat.lt_succ_of_le h)]
  | cons b bs ih =>
    have hn1 : (adlerS1 p.1 b).toNat ≡ p.1.toNat + b.toNat [MOD 65521] := adlerS1_toNat p.1 b ▸ Nat.mod_modEq _ _
    have hn2 : (adlerS2 p.2 (adlerS1 p.1 b)).toNat ≡ p.2.toNat + (p.1.toNat + b.toNat) [MOD 65521] :=
      (adlerS2_toNat _ _ ▸ Nat.mod_modEq _ _).trans (hn1.add_left _)
    calc (adlFold p (b :: bs)).2.toNat
        = ((adlerS2 p.2 (adlerS1 p.1 b)).toNat + bs.length * (adlerS1 p.1 b).toNat + weightedByteSum bs) % 65521 :=
          ih (p := adlStep p b) (adlerS2_le p.2 _)
      _ = (p.2.toNat + (p.1.toNat + b.toNat) + bs.length * (p.1.toNat + b.toNat) + weightedByteSum bs) % 65521 :=
          (hn2.add (hn1.mul_left _)).add_right _
      _ = (p.2.toNat + (b :: bs).length * p.1.toNat + weightedByteSum (b :: bs)) % 65521 := by
        congr 1
        rw [List.length_cons, weightedByteSum]
        ring

/-- Settles O46: the run gives the channel what its own words give it, the writers of the sums among them give it the
fold of R68 from 1 and 0, and that fold has the closed form. -/
theorem adlerSumsHaveClosedForm : Obligations.AdlerSumsHaveClosedForm := by
  intro s c ch bs hinv hr hc hcall
  obtain ⟨rs, t, htrace, -, -, -, hchan⟩ := hinv.runTrace_pending hr
  obtain ⟨-, hown⟩ := hchan c ch hc
  obtain ⟨h1, h2⟩ := Prod.ext_iff.1 (chanRun_adlerSums_of_call hcall ch)
  refine ⟨rs, t, _, htrace, hown, ?_, ?_⟩
  · exact (congrArg BitVec.toNat h1).trans (adlFold_fst_toNat bs (by decide))
  · refine (congrArg BitVec.toNat h2).trans ((adlFold_snd_toNat bs (by decide)).trans ?_)
    simp [adlerS1Init, adlerS2Init]

/-! The commands. -/

/-- Settles O18: one write to the channel's registers, of the two sums as exact integers. -/
theorem adlupdAddsByte : Obligations.AdlupdAddsByte := by
  refine ⟨fun b => word_eq_or 0x21#8 b ▸ decode_encode (.adlupd b), fun s ch b hc => ?_⟩
  exact ⟨_, _, _, onSelected_of_chanAt hc _, adlerS1_toNat ch.s1 b, adlerS2_toNat ch.s2 _,
    State.setChan_chanAt_port hc _, fun c h => State.setChan_chanAt_other s _ h, fun _ => rfl, rfl, rfl, rfl, rfl, rfl⟩

/-- Settles O20: byte `k` of the result counts from the high byte of `s2`, which stands above `s1`. -/
theorem adlgetbReadsByte : Obligations.AdlgetbReadsByte := by
  refine ⟨fun k => ?_, fun w hlo hhi => ?_, fun s ch k hc => ?_⟩
  · rw [← setWidth_opdOfSel]
    exact word_eq_or 0x23#8 _ ▸ decode_encode (.adlgetb k)
  · have hopc : w.toNat / 256 = 0x23 := by omega
    exact legalWord_eq_false_of_wide_selector (by rw [hopc]; rfl) (by omega)
  · have hbyte := zext32_be4At_toNat (adlerResult ch.s1 ch.s2)
    have hs1 := ch.s1.isLt
    have hs2 := ch.s2.isLt
    simp only [adlerResult_toNat] at hbyte
    refine ⟨_, _, onSelected_of_chanAt hc _, State.respond_rsp _ _, ?_, ?_, ?_, ?_, rfl, rfl, rfl, rfl, rfl⟩
    all_goals
      rintro rfl
      rw [hbyte]
      simp only [BitVec.reduceToNat, Nat.reduceMul, Nat.reduceSub, Nat.reducePow]
      omega

/-- Two numbers below the modulus need at most one subtraction. -/
theorem add_mod_eq_one_subtraction {m n : Nat} (hm : m < 65521) (hn : n < 65521) :
    (m + n) % 65521 = if 65521 ≤ m + n then m + n - 65521 else m + n := by
  rw [Nat.add_mod_eq_ite, Nat.mod_eq_of_lt hm, Nat.mod_eq_of_lt hn]

/-- Settles O34: a sum in range, a byte and the new `s1` are each below the modulus. -/
theorem adlerReductionIsOneSubtraction : Obligations.AdlerReductionIsOneSubtraction := by
  intro s1 s2 b h1 h2
  have hn1 := adlerS1_le s1 b
  constructor
  · rw [adlerS1_toNat]
    exact add_mod_eq_one_subtraction (by omega) (by omega)
  · rw [adlerS2_toNat]
    exact add_mod_eq_one_subtraction (by omega) (by omega)

/-- Settles O17: one write to the channel's registers. -/
theorem adlinitPresetsSums : Obligations.AdlinitPresetsSums := by
  refine ⟨decode_encode .adlinit, fun s ch hc => ⟨_, onSelected_of_chanAt hc _, ?_⟩⟩
  exact ⟨State.setChan_chanAt_port hc _, fun c h => State.setChan_chanAt_other s _ h, fun _ => rfl, rfl, rfl, rfl, rfl,
    rfl⟩

/-- Settles O19: the result is read as it stands, with no output mask. -/
theorem adlgetReadsSums : Obligations.AdlgetReadsSums :=
  ⟨decode_encode .adlget, fun _ ch hc => ⟨_, _, onSelected_of_chanAt hc _, State.respond_rsp _ _,
    adlerResult_toNat ch.s1 ch.s2, rfl, rfl, rfl, rfl, rfl⟩⟩

end Sys2Proof.Machine

/-! The system commands (42_system.md R69, R70): the words near `NOP`, and what the two commands do. -/

namespace Sys2Proof

/-! The word of `NOP` (30_encoding.md R41) and the illegal words beside it (R42). -/

/-- A decoded command is built by a row that selects the word. -/
theorem exists_row_of_decode {w : Cmd} {i : Instr} (h : decode w = .ok i) :
    ∃ r ∈ rows, r.selects w = true ∧ r.build w = i := by
  cases hfind : rows.find? (fun r => r.selects w) with
  | none => simp [decode, hfind] at h
  | some r =>
    have hsel : r.selects w = true := by simpa using List.find?_some hfind
    exact ⟨r, List.mem_of_find?_eq_some hfind, hsel, by simpa [decode, hfind] using h⟩

/-- Only one row builds `NOP`, and it fixes every bit of the word. -/
theorem Row.fields_of_build_nop {r : Row} (hr : r ∈ rows) {w : Cmd} (h : r.build w = .nop) :
    r.mtch = 0#16 ∧ r.mask = BitVec.allOnes 16 := by
  simp only [rows, List.mem_cons, List.not_mem_nil, or_false] at hr
  rcases hr with rfl | rfl | rfl | rfl | rfl | rfl | rfl | rfl | rfl | rfl | rfl
  · exact ⟨rfl, rfl⟩
  all_goals cases h

theorem decode_eq_nop_iff (w : Cmd) : decode w = .ok .nop ↔ w = 0#16 := by
  refine ⟨fun h => ?_, fun h => h ▸ decode_encode .nop⟩
  obtain ⟨r, hr, hsel, hbuild⟩ := exists_row_of_decode h
  obtain ⟨hmtch, hmask⟩ := Row.fields_of_build_nop hr hbuild
  have hw : w &&& r.mask = r.mtch := beq_iff_eq.1 hsel
  rwa [hmtch, hmask, BitVec.and_allOnes] at hw

/-- An opcode of format `N` with a number other than 0 (R42). -/
theorem legalWord_eq_false_of_operand {w : Cmd} (hopc : formatOfOpcode (w.toNat / 256) = some .N)
    (hopd : w.toNat % 256 ≠ 0) : legalWord w = false := by
  simp [legalWord, illegalReason, hopc, hopd]

end Sys2Proof

namespace Sys2Proof.Machine

open Sys2Proof

/-- Settles O10: the one row that builds `NOP` selects one word, and `OPC` of its neighbours is of format `N`. -/
theorem nopDoesNothing : Obligations.NopDoesNothing := by
  refine ⟨decode_eq_nop_iff, fun w hlo hhi => ?_, fun s => ⟨_, rfl, rfl, rfl, rfl, rfl, rfl, rfl⟩⟩
  have hopc : w.toNat / 256 = 0x00 := by omega
  exact legalWord_eq_false_of_operand (by rw [hopc]; rfl) (by omega)

/-- Settles O11: the response is the status word, which is the flag with zeros above. -/
theorem statrdReadsIll : Obligations.StatrdReadsIll :=
  ⟨decode_encode .statrd, fun _ _ hc => ⟨_, onSelected_of_chanAt hc _, State.respond_rsp _ _, rfl, rfl, rfl, rfl,
    rfl⟩⟩

end Sys2Proof.Machine

/-! The empty calls (43_call_protocol.md R74): a result read straight after the registers are preset. -/

namespace Sys2Proof.Machine

open Sys2Proof

/-- Settles O48: the preset command leaves its registers at the port (R50, R60), the result command reads them there
(R52, R62), and the presets complement to 0 (R71) and stand for 1 (R72). -/
theorem emptyCallsAnswerZeroAndOne : Obligations.EmptyCallsAnswerZeroAndOne := by
  refine ⟨rfl, rfl, fun s ch hc => ⟨?_, ?_⟩⟩
  · obtain ⟨t, hinit, hpreset, -, -, -, -, -, -, hport⟩ := crcinitPresetsAccumulator.2 s ch hc
    rw [← hport] at hpreset ⊢
    obtain ⟨u, hget, hrsp, -⟩ := crcgetReadsComplement.2 t _ hpreset
    exact ⟨t, u, hinit, hget, by simpa using hrsp⟩
  · obtain ⟨t, hinit, hpreset, -, -, -, -, -, -, hport⟩ := adlinitPresetsSums.2 s ch hc
    rw [← hport] at hpreset ⊢
    obtain ⟨u, d, hget, hrsp, hd, -⟩ := adlgetReadsSums.2 t _ hpreset
    have hone : d = 0x00000001#32 := BitVec.eq_of_toNat_eq (by simpa using hd)
    exact ⟨t, u, hinit, hget, hone ▸ hrsp⟩

end Sys2Proof.Machine

/-! The one exception, `IllegalCommand` (60_exceptions.md R81, R82). -/

namespace Sys2Proof.Machine

open Sys2Proof

/-- A command issued on an existing channel completes (R81), whatever the table holds. -/
theorem exec_completes (i : Instr) {s : State} {ch : Chan} (hc : s.chanAt s.port = some ch) :
    ∃ t, exec i s = .next t := by
  cases i with
  | nop | tblrd => exact ⟨_, rfl⟩
  | statrd | crcinit | crcupd | crcget | crcgetb | adlinit | adlupd | adlget | adlgetb =>
    exact ⟨_, onSelected_of_chanAt hc _⟩

/-- All a command can do to the channels: nothing, or one write to the issuing channel that keeps its `ILL`. -/
theorem exec_chan_cases {i : Instr} {s t : State} (h : exec i s = .next t) :
    t.unit.chan = s.unit.chan ∨
    ∃ ch ch', s.chanAt s.port = some ch ∧ t.unit.chan = s.unit.chan.set s.port ch' ∧ ch'.ill = ch.ill := by
  cases i with
  | nop | tblrd => cases h; exact .inl rfl
  | statrd | crcget | crcgetb | adlget | adlgetb =>
    obtain ⟨ch, -, rfl⟩ := onSelected_next h
    exact .inl rfl
  | crcinit | crcupd | adlinit | adlupd =>
    obtain ⟨ch, hc, rfl⟩ := onSelected_next h
    exact .inr ⟨ch, _, hc, rfl, rfl⟩

/-- No command changes `ILL` of any channel. -/
theorem exec_keeps_ill {i : Instr} {s t : State} (h : exec i s = .next t) (d : Nat) :
    (t.chanAt d).map (·.ill) = (s.chanAt d).map (·.ill) := by
  rcases exec_chan_cases h with hchan | ⟨ch, ch', hc, hchan, hill⟩
  · simp only [State.chanAt, hchan]
  · have ht : t.chanAt d = (s.setChan ch').chanAt d := congrArg (·[d]?) hchan
    rw [ht]
    by_cases hd : d = s.port
    · rw [hd, State.setChan_chanAt_port hc, hc, Option.map_some, Option.map_some, hill]
    · rw [State.setChan_chanAt_other s ch' hd]

/-- Settles O23: the step runs the word on its channel; an illegal word does there what R42 says, and a legal one is a
command, which completes and keeps every `ILL`. -/
theorem illegalWordSetsOnlyIll : Obligations.IllegalWordSetsOnlyIll := by
  intro s c w rest ch hr hp hc
  have hstep : step s = runWord w (s.accept c rest) := step_of_pending hr hp hc
  obtain ⟨hlegal, hillegal⟩ := decodingIsTotalAndIllegalWordsAreNamed w
  rw [hstep]
  refine ⟨fun hw => ?_, fun hw => ?_⟩
  · obtain ⟨e, he⟩ := (legalWord_eq_false_iff w).1 hw
    obtain ⟨-, -, heffect⟩ := hillegal e he
    obtain ⟨t, hrun, hown, hothers, htbl, hrsp, hcfg, hpending, hreset, hport⟩ := heffect (s.accept c rest) ch hc
    exact ⟨t, hrun, hown, hothers, htbl, hrsp, hcfg, hpending, hreset.trans hr, hport⟩
  · obtain ⟨-, i, hi⟩ := hlegal hw
    rw [runWord_of_decode hi]
    obtain ⟨t, ht⟩ := exec_completes i (s := s.accept c rest) hc
    exact ⟨t, ht, exec_keeps_ill (s := s.accept c rest) ht⟩

end Sys2Proof.Machine

/-! One reading for every word (30_encoding.md R41, 95_test_vectors.md section 5): the row that selects a word builds
the command whose encoding is the word. -/

namespace Sys2Proof

/-- `OPD` as the command built from a word has it (R39, R40). -/
def Format.operand : Format → Cmd → Byte
  | .N, _ => 0x00#8
  | .B, w => opd w
  | .K, w => opdOfSel (sel w)

theorem sel_eq_setWidth_opd (w : Cmd) : sel w = (opd w).setWidth 2 := by
  simp [sel, opd, BitVec.setWidth_eq_extractLsb']

/-- A number below 4 is its low two bits with zeros above. -/
theorem opdOfSel_setWidth {d : Byte} (h : d &&& 0xFC#8 = 0#8) : opdOfSel (d.setWidth 2) = d := by
  revert d; decide

/-- Where the bits that the format wants zero are zero, no bit of `OPD` is lost. -/
theorem Format.operand_eq_opd {f : Format} {w : Cmd} (h : opd w &&& f.opdMask = 0#8) : f.operand w = opd w := by
  cases f with
  | N => exact h.symm.trans (byte_and_ones _)
  | B => rfl
  | K => rw [Format.operand, sel_eq_setWidth_opd, opdOfSel_setWidth h]

/-- The encoding of what a row builds has the row's opcode, and its operand in the row's format. -/
theorem encode_build {r : Row} (hr : r ∈ rows) {f : Format} (hf : formatOfOpcode (opc r.mtch).toNat = some f)
    (w : Cmd) : encode (r.build w) = word (opc r.mtch) (f.operand w) := by
  simp only [rows, List.mem_cons, List.not_mem_nil, or_false] at hr
  rcases hr with rfl | rfl | rfl | rfl | rfl | rfl | rfl | rfl | rfl | rfl | rfl
  all_goals
    cases hf
    rfl

/-- The row that selects a word builds a command of which the word is the encoding. -/
theorem encode_build_of_selects {r : Row} (hr : r ∈ rows) {w : Cmd} (hsel : r.selects w = true) :
    encode (r.build w) = w := by
  obtain ⟨f, hf, hmtch, hmask⟩ := format_of_mem_rows hr
  obtain ⟨hopc, hopd⟩ := (Row.selects_iff hmtch hmask w).1 hsel
  rw [encode_build hr hf, Format.operand_eq_opd hopd, ← hopc, word_opc_opd]

/-- Settles O2: a decoded command is built by a row that selects the word; the converse is `decode_encode`. -/
theorem everyWordHasOneReading : Obligations.EveryWordHasOneReading := by
  refine fun w i => ⟨fun h => ?_, fun h => h ▸ decode_encode i⟩
  obtain ⟨r, hr, hsel, rfl⟩ := exists_row_of_decode h
  exact (encode_build_of_selects hr hsel).symm

/-- Settles O1: the words are few and written out, so the decoder is run on each. -/
theorem opcodeMapWordsDecode : Obligations.OpcodeMapWordsDecode := by
  unfold Obligations.OpcodeMapWordsDecode
  decide

end Sys2Proof

/-! The invariant (10_state.md R10, R15, R20): it holds after reset, and steps, hosts and the platform keep it. -/

namespace Sys2Proof.Machine

open Sys2Proof

theorem State.takeReset_eq_resetWith (s : State) : s.takeReset = State.resetWith s.cfg := rfl

/-- The reset state has the invariant as soon as there is a channel. -/
theorem State.resetWith_inv {cfg : Config} (h : 1 ≤ cfg.nch) : (State.resetWith cfg).Inv :=
  ⟨⟨h, by simp⟩, State.adlerOk_of_atReset (State.resetWith_unit_chan cfg), State.tableOk_of_atReset rfl,
    by simp [State.resetWith], h, by simp [State.resetWith]⟩

/-- Settles O37: a legal configuration has a channel. -/
theorem resetHasInvariant : Obligations.ResetHasInvariant := fun _ h => State.resetWith_inv (of_decide_eq_true h)

/-- Settles O38: only the pending words, or only the reset input, have changed. -/
theorem hostsKeepInvariant : Obligations.HostsKeepInvariant := by
  intro s c w ⟨hcfg, hadler, htbl, hpending, hport, hrsp⟩ hc
  refine ⟨⟨hcfg, hadler, htbl, fun p hp => ?_, hport, hrsp⟩, hcfg, hadler, htbl, hpending, hport, hrsp⟩
  rcases List.mem_append.1 hp with hp | hp
  · exact hpending p hp
  · rw [List.mem_singleton.1 hp]
    exact hc

/-- A pending word is on a channel there is. -/
theorem State.Inv.chanAt_of_pending {s : State} (hs : s.Inv) {p : Presented} (hp : p ∈ s.pending) :
    ∃ ch, s.chanAt p.chan = some ch := by
  obtain ⟨⟨-, hlen⟩, -, -, hpending, -⟩ := hs
  exact ⟨_, List.getElem?_eq_getElem (hlen ▸ hpending p hp)⟩

/-- Taking a word changes neither the configuration nor the number of channels, and port and response are on the word's
channel. -/
theorem runWord_keeps_ports {s t : State} {p : Presented} {rest : List Presented} (hs : s.Inv)
    (hp : s.pending = p :: rest) (h : runWord p.word (s.accept p.chan rest) = .next t) : t.ConfigOk ∧ t.PortsOk := by
  obtain ⟨ch, hc⟩ := hs.chanAt_of_pending (hp ▸ List.mem_cons_self)
  obtain ⟨⟨hnch, hlen⟩, -, htbl, hpending, -⟩ := hs
  have hchan : p.chan < s.cfg.nch := hpending p (hp ▸ List.mem_cons_self)
  obtain ⟨t', hrun, -, -, -, ⟨hcfg, hrest, -, hport⟩, hrsp, hlen'⟩ :=
    runWord_of_chanAt (s := s.accept p.chan rest) p.word htbl hc
  cases h.symm.trans hrun
  unfold State.ConfigOk State.PortsOk
  rw [hcfg, hlen', hrest, hport, hrsp]
  refine ⟨⟨hnch, hlen⟩, fun q hq => hpending q (hp ▸ List.mem_cons_of_mem p hq), hchan, fun r hr => ?_⟩
  obtain ⟨d, -, rfl⟩ := Option.map_eq_some_iff.1 (Option.mem_toList.1 hr)
  exact hchan

/-- Settles O36: the reset answers the reset state, the idle step only drops the response, and a word keeps each part
of the invariant. -/
theorem stepKeepsInvariant : Obligations.StepKeepsInvariant := by
  intro s t hs h
  have ⟨⟨hnch, hlen⟩, hsums, hentries, hpending, hport, _⟩ := hs
  have hadler : t.AdlerOk := State.AdlerOk.step hsums hentries h
  have htbl : t.TableOk := State.TableOk.step hentries h
  rcases step_next_cases h with ⟨-, rfl⟩ | ⟨-, -, rfl⟩ | ⟨-, p, rest, hp, -, hw⟩
  · exact State.resetWith_inv hnch
  · exact ⟨⟨hnch, hlen⟩, hadler, htbl, hpending, hport, by simp⟩
  · obtain ⟨hcfg, hports⟩ := runWord_keeps_ports hs hp hw
    exact ⟨hcfg, hadler, htbl, hports⟩

end Sys2Proof.Machine

/-! Runs of a schedule (20_memory.md R27, R35): each channel as if it ran alone. -/

namespace Sys2Proof.Machine

open Sys2Proof

/-- Settles O41: the first `k` pending words are a schedule on channels there are. -/
theorem machineRefinesIndependentChannels : Obligations.MachineRefinesIndependentChannels := by
  rintro s k ⟨⟨-, hlen⟩, -, htbl, hpending, -⟩ hr hk
  have hports : ∀ p ∈ s.pending.take k, p.chan < s.unit.chan.length :=
    fun p hp => hlen ▸ hpending p (List.mem_of_mem_take hp)
  obtain ⟨rs, t, htrace, hrest, -, -, hchan⟩ :=
    runTrace_schedule (s.pending.take k) htbl hr (List.take_append_drop k s.pending).symm hports
  rw [List.length_take_of_le hk] at htrace
  exact ⟨rs, t, htrace, hrest, hchan⟩

/-- Settles O42: both runs give the channel what its words give it when it runs alone. -/
theorem channelResultsIgnoreInterleaving : Obligations.ChannelResultsIgnoreInterleaving := by
  intro s s' c ch rs rs' t t' hs hs' hr hr' hc hc' hwords htrace htrace'
  obtain ⟨_, _, hrun, -, -, -, hchan⟩ := hs.runTrace_pending hr
  obtain ⟨_, _, hrun', -, -, -, hchan'⟩ := hs'.runTrace_pending hr'
  cases htrace.symm.trans hrun
  cases htrace'.symm.trans hrun'
  obtain ⟨hrs, ht⟩ := hchan c ch hc
  obtain ⟨hrs', ht'⟩ := hchan' c ch hc'
  exact ⟨by rw [hrs, hrs', hwords], by rw [ht, ht', hwords]⟩

end Sys2Proof.Machine

/-! One step, case by case (20_memory.md R33, 60_exceptions.md R81, R84, 70_reset_and_hazards.md R93, R96). -/

namespace Sys2Proof.Machine

open Sys2Proof

theorem step_of_reset {s : State} (hr : s.resetIn = true) : step s = .next s.takeReset := by
  simp [step, oneStep, hr]

theorem step_of_nothing_pending {s : State} (hr : s.resetIn = false) (hp : s.pending = []) :
    step s = .next s.idle := by
  simp [step, oneStep, hr, hp]

theorem step_of_missing_channel {s : State} {p : Presented} {rest : List Presented} (hr : s.resetIn = false)
    (hp : s.pending = p :: rest) (hc : s.chanAt p.chan = none) : step s = .fault .noSuchChannel := by
  have hno : ¬ s.hasChannel p.chan = true := by simp [State.hasChannel_iff, hc]
  simp [step, oneStep, hr, hp, issue, hno]

/-- Settles O8: the reset step leaves nothing of the old state but the configuration. -/
theorem assertedResetLeavesResetState : Obligations.AssertedResetLeavesResetState := fun s hr => by
  rw [step_of_reset hr, State.takeReset_eq_resetWith]

/-- Settles O6: the idle step drops the last response and changes nothing else. -/
theorem idleUnitDoesNothing : Obligations.IdleUnitDoesNothing := fun _ hr hp =>
  ⟨_, step_of_nothing_pending hr hp, rfl, rfl, rfl, rfl, rfl, rfl⟩

/-- Settles O5: there is no port to take the word from. -/
theorem wordOnMissingChannelFaults : Obligations.WordOnMissingChannelFaults := fun _ _ _ hr hp hc =>
  step_of_missing_channel hr hp hc

/-- Settles O4: the word is taken, and a legal word is its command. -/
theorem stepRunsDecodedCommand : Obligations.StepRunsDecodedCommand := by
  intro s c w rest ch i hr hp hc hi
  calc step s = runWord w (s.accept c rest) := step_of_pending hr hp hc
    _ = exec i (s.accept c rest) := runWord_of_decode hi _

/-- Settles O39: the invariant puts every pending word on a channel there is, where it is taken. -/
theorem everyStepCompletes : Obligations.EveryStepCompletes := by
  intro s hs
  cases hr : s.resetIn with
  | true => exact ⟨_, step_of_reset hr, nofun⟩
  | false =>
    cases hp : s.pending with
    | nil => exact ⟨_, step_of_nothing_pending hr hp, fun _ => hp⟩
    | cons p rest =>
      obtain ⟨ch, hc⟩ := hs.chanAt_of_pending (hp ▸ List.mem_cons_self)
      obtain ⟨-, -, htbl, -⟩ := hs
      obtain ⟨t, hstep, -, -, hrest, -⟩ := step_takes_word htbl hr hp hc
      exact ⟨t, hstep, fun _ => hrest⟩

end Sys2Proof.Machine

/-! What one command leaves unchanged (10_state.md R16, 30_encoding.md R49, 41_adler32.md R68). -/

namespace Sys2Proof.Machine

open Sys2Proof

/-- A write to the issuing channel that keeps what `read` reads of it keeps it on every channel. -/
theorem State.setChan_map_chanAt {α : Type} {read : Chan → α} {s : State} {ch ch' : Chan}
    (hc : s.chanAt s.port = some ch) (h : read ch' = read ch) (c : Nat) :
    ((s.setChan ch').chanAt c).map read = (s.chanAt c).map read := by
  by_cases hp : c = s.port
  · rw [hp, State.setChan_chanAt_port hc, hc, Option.map_some, Option.map_some, h]
  · rw [State.setChan_chanAt_other s ch' hp]

/-- `ADLINIT` and `ADLUPD` keep every `CRC_ACC`. -/
theorem exec_adler_keeps_crcAcc {i : Instr} {s t : State} (hi : i = .adlinit ∨ ∃ b, i = .adlupd b)
    (h : exec i s = .next t) (c : Nat) : (t.chanAt c).map (·.crcAcc) = (s.chanAt c).map (·.crcAcc) := by
  rcases hi with rfl | ⟨b, rfl⟩
  all_goals
    obtain ⟨ch, hc, rfl⟩ := onSelected_next h
    exact State.setChan_map_chanAt hc (by rfl) c

/-- `CRCINIT`, `CRCUPD` and `TBLRD` keep both sums of every channel. -/
theorem exec_crc_keeps_adlerSums {i : Instr} {s t : State}
    (hi : i = .crcinit ∨ (∃ b, i = .crcupd b) ∨ ∃ v, i = .tblrd v) (h : exec i s = .next t) (c : Nat) :
    (t.chanAt c).map Chan.adlerSums = (s.chanAt c).map Chan.adlerSums := by
  rcases hi with rfl | ⟨b, rfl⟩ | ⟨v, rfl⟩
  · obtain ⟨ch, hc, rfl⟩ := onSelected_next h
    exact State.setChan_map_chanAt hc (by rfl) c
  · obtain ⟨ch, hc, rfl⟩ := onSelected_next h
    exact State.setChan_map_chanAt (s := s.setTbl _) hc (by rfl) c
  · cases h
    rfl

theorem tableSame_of_tbl_eq {s t : State} (h : t.unit.tbl = s.unit.tbl) : TableSame s t :=
  fun v => congrArg (Memory.read · v) h

/-- Only the two commands that look an entry up can change the table. -/
theorem exec_tableSame {i : Instr} {s t : State} (hb : ∀ b, i ≠ .crcupd b) (hv : ∀ v, i ≠ .tblrd v)
    (h : exec i s = .next t) : TableSame s t := by
  rcases exec_tbl_cases h with ⟨v, hi, -⟩ | ⟨b, -, hi, -⟩ | ⟨-, -, htbl⟩
  · exact absurd hi (hv v)
  · exact absurd hi (hb b)
  · exact tableSame_of_tbl_eq htbl

/-- Settles O22: no command writes `ILL`, and the commands of one engine do not write the registers of the other. -/
theorem enginesAreIndependent : Obligations.EnginesAreIndependent := by
  intro i s t c ch h hc
  have hill := exec_keeps_ill h c
  rw [hc, Option.map_some] at hill
  obtain ⟨ch', hc', hill⟩ := Option.map_eq_some_iff.1 hill
  refine ⟨ch', hc', hill, fun hi => ⟨?_, ?_⟩, fun hi => ?_⟩
  · simpa [hc, hc'] using exec_adler_keeps_crcAcc hi h c
  · rcases hi with rfl | ⟨b, rfl⟩ <;> exact exec_tableSame (by simp) (by simp) h
  · simpa [hc, hc', Chan.adlerSums] using exec_crc_keeps_adlerSums hi h c

/-- Settles O21: these commands change the response and nothing else. -/
theorem readsWriteNothing : Obligations.ReadsWriteNothing := by
  intro i s t hi h
  rcases hi with rfl | rfl | rfl | rfl | ⟨k, rfl⟩ | ⟨k, rfl⟩
  · cases h
    exact ⟨fun _ => rfl, fun _ => rfl, rfl, rfl, rfl, rfl⟩
  all_goals
    obtain ⟨ch, -, rfl⟩ := onSelected_next h
    exact ⟨fun _ => rfl, fun _ => rfl, rfl, rfl, rfl, rfl⟩

/-- Settles O26: every command but `STATRD` computes from the other registers, and writes `ILL` back as it was. -/
theorem illChangesNoResult : Obligations.IllChangesNoResult := by
  intro i s ch x hi hc
  have hx : (s.setChan { ch with ill := x }).chanAt s.port = some { ch with ill := x } :=
    State.setChan_chanAt_port hc _
  cases i with
  | statrd => exact absurd rfl hi
  | nop | tblrd => exact ⟨_, _, ch, rfl, rfl, rfl, rfl, hc, hx⟩
  | crcget | crcgetb | adlget | adlgetb =>
    exact ⟨_, _, ch, onSelected_of_chanAt hc _, onSelected_of_chanAt hx _, rfl, rfl, hc, hx⟩
  | crcinit | adlinit | adlupd =>
    exact ⟨_, _, _, onSelected_of_chanAt hc _, onSelected_of_chanAt hx _, rfl, rfl, State.setChan_chanAt_port hc _,
      State.setChan_chanAt_port hx _⟩
  | crcupd b =>
    exact ⟨_, _, _, onSelected_of_chanAt hc _, onSelected_of_chanAt hx _, rfl, rfl,
      State.setChan_chanAt_port (s := s.setTbl _) hc _,
      State.setChan_chanAt_port (s := (s.setChan { ch with ill := x }).setTbl _) hx _⟩

/-- Settles O40: under the table invariant both answers are that of the channel run alone. -/
theorem commandDependsOnItsChannelAlone : Obligations.CommandDependsOnItsChannelAlone := by
  intro i s s' ch htbl htbl' hport hc hc'
  obtain ⟨t, hexec, hown, hothers, -, -, hrsp, -⟩ := exec_of_chanAt i htbl hc
  obtain ⟨t', hexec', hown', hothers', -, -, hrsp', -⟩ := exec_of_chanAt i htbl' hc'
  rw [hport] at hown' hrsp'
  exact ⟨t, t', hexec, hexec', hrsp'.trans hrsp.symm, hown'.trans hown.symm, hothers, hothers'⟩

/-- Settles O9: the two commands preset all registers but `ILL` to the values of R21. -/
theorem initialisedChannelIsFreshFromReset : Obligations.InitialisedChannelIsFreshFromReset := by
  intro s ch cfg hc hill hcfg
  obtain ⟨t, hcrc, hpreset, -, -, -, -, -, -, hport⟩ := crcinitPresetsAccumulator.2 s ch hc
  rw [← hport] at hpreset ⊢
  obtain ⟨u, hadl, hpreset', -⟩ := adlinitPresetsSums.2 t _ hpreset
  refine ⟨t, u, hcrc, hadl, ?_⟩
  rw [hpreset', State.resetWith_chanAt hcfg, hill]
  rfl

/-- An illegal word sets one `ILL` and clears none. -/
theorem raiseIllegalCommand_keeps_set_ill {s t : State} {c : Nat} {ch : Chan} (h : raiseIllegalCommand s = .next t)
    (hc : s.chanAt c = some ch) (hill : ch.ill = true) : ∃ ch', t.chanAt c = some ch' ∧ ch'.ill = true := by
  obtain ⟨chp, hcp, rfl⟩ := onSelected_next h
  by_cases hp : c = s.port
  · exact ⟨chp.withIll, by rw [hp, State.silent_chanAt, State.setChan_chanAt_port hcp], rfl⟩
  · exact ⟨ch, (State.setChan_chanAt_other s _ hp).trans hc, hill⟩

/-- Settles O25: a command writes no `ILL`, an illegal word only sets one. -/
theorem illIsClearedOnlyByReset : Obligations.IllIsClearedOnlyByReset := by
  intro s t c ch hr h hc hill
  rcases step_next_cases h with ⟨hr', -⟩ | ⟨-, -, rfl⟩ | ⟨-, p, rest, -, -, hw⟩
  · simp [hr] at hr'
  · exact ⟨ch, hc, hill⟩
  · rcases runWord_cases p.word (s.accept p.chan rest) with ⟨i, -, hrun⟩ | ⟨_, -, hrun⟩
    · have hkeep := exec_keeps_ill (hrun ▸ hw) c
      rw [State.accept_chanAt, hc, Option.map_some, hill] at hkeep
      exact Option.map_eq_some_iff.1 hkeep
    · exact raiseIllegalCommand_keeps_set_ill (s := s.accept p.chan rest) (hrun ▸ hw) hc hill

end Sys2Proof.Machine

/-! The table in one step and in every reachable state (20_memory.md R26, R27, 10_state.md R20). -/

namespace Sys2Proof.Machine

open Sys2Proof

/-- Settles O27: a lookup that hits writes nothing, and one that misses fills another entry. -/
theorem validEntriesStay : Obligations.ValidEntriesStay := fun _ _ _ _ hr h hv => step_keeps_valid_entry hr h hv

/-- Settles O30: under `eager` the table is full, so every lookup is a hit. -/
theorem lookupReturnsEntryInReachableStates : Obligations.LookupReturnsEntryInReachableStates := by
  intro s v h
  have ⟨_, _, hfull⟩ := h.tableOk
  refine ⟨h.tableOk.lookup_eq_entry v, fun he => ?_⟩
  rw [hfull he, Memory.lookup_hit (Memory.read_full v)]

/-- Settles O31: the iteration is run on the two bytes. -/
theorem entryTraces : Obligations.EntryTraces := by
  unfold Obligations.EntryTraces
  decide

/-- A table that a lookup of `v` leaves is filled on demand (R26). -/
theorem fillsOnDemand_of_lookup {s t : State} {v : Byte} (h : t.unit.tbl = (Memory.lookup s.unit.tbl v).2) :
    FillsOnDemand s t v := by
  unfold FillsOnDemand State.entryAt
  rw [h]
  exact ⟨fun u hu => Memory.lookup_read_other _ v hu, fun e he => Memory.lookup_keeps_valid v he,
    fun hmiss => by rw [Memory.lookup_read, Memory.lookup_miss hmiss]⟩

/-- Settles O28: the two commands that demand an entry leave the table as the lookup does, all other words leave it
alone. -/
theorem stepFillsAtMostOneEntry : Obligations.StepFillsAtMostOneEntry := by
  intro s t hr h
  refine ⟨fun hp => ?_, fun c w rest ch hp hc => ?_⟩
  · cases (step_of_nothing_pending hr hp).symm.trans h
    exact tableSame_of_tbl_eq (State.idle_unit_tbl s)
  · have hw : runWord w (s.accept c rest) = .next t := (step_of_pending hr hp hc).symm.trans h
    refine ⟨fun b hd => ?_, fun v hd => ?_, fun hb hv => ?_⟩
    · rw [runWord_of_decode hd] at hw
      cases (onSelected_of_chanAt (s := s.accept c rest) hc _).symm.trans hw
      exact fillsOnDemand_of_lookup rfl
    · rw [runWord_of_decode hd] at hw
      cases hw
      exact fillsOnDemand_of_lookup rfl
    · rcases runWord_cases w (s.accept c rest) with ⟨i, hd, hrun⟩ | ⟨_, -, hrun⟩
      · exact exec_tableSame (s := s.accept c rest) (fun b hi => hb b (hi ▸ hd)) (fun v hi => hv v (hi ▸ hd))
          (hrun ▸ hw)
      · exact tableSame_of_tbl_eq (s := s.accept c rest) (raiseIllegalCommand_tbl (hrun ▸ hw))

end Sys2Proof.Machine

/-! Calls (43_call_protocol.md R71, R72, R76 to R78): commands presented in a row on one channel, and what that channel
answers to them when it runs alone. -/

namespace Sys2Proof.Machine

open Sys2Proof

/-- The answers of one channel to a list of commands. -/
def chanAnswers (ch : Chan) (is : List Instr) : List Word := (chanRun ch (is.map encode)).1

@[simp] theorem chanAnswers_nil (ch : Chan) : chanAnswers ch [] = [] := rfl

theorem chanWord_encode (ch : Chan) (i : Instr) : chanWord ch (encode i) = chanExec ch i := by
  simp [chanWord, decode_encode]

@[simp] theorem chanAnswers_cons (ch : Chan) (i : Instr) (is : List Instr) :
    chanAnswers ch (i :: is) = (chanExec ch i).2.toList ++ chanAnswers (chanExec ch i).1 is := by
  simp [chanAnswers, chanRun, chanWord_encode]

/-- Updates of the accumulator answer nothing and fold their bytes into it (40_crc32.md R55). -/
theorem chanAnswers_crcfeed (ch : Chan) (bs : List Byte) (is : List Instr) :
    chanAnswers ch (bs.map .crcupd ++ is) = chanAnswers { ch with crcAcc := crcFold ch.crcAcc bs } is := by
  induction bs generalizing ch with
  | nil => rfl
  | cons b bs ih => exact (chanAnswers_cons ch _ _).trans (ih _)

/-- Updates of the sums answer nothing and fold their bytes into them (41_adler32.md R68). -/
theorem chanAnswers_adlfeed (ch : Chan) (bs : List Byte) (is : List Instr) :
    chanAnswers ch (bs.map .adlupd ++ is) =
      chanAnswers { ch with s1 := (adlFold ch.adlerSums bs).1, s2 := (adlFold ch.adlerSums bs).2 } is := by
  induction bs generalizing ch with
  | nil => rfl
  | cons b bs ih => exact (chanAnswers_cons ch _ _).trans (ih _)

theorem chanAnswers_emitcrc (ch : Chan) :
    chanAnswers ch Pseudo.emitcrc.expand = (be4 (crcResult ch.crcAcc)).map zext32 := by
  simp [Pseudo.expand, chanExec, be4, be4At]

theorem chanAnswers_emitadl (ch : Chan) :
    chanAnswers ch Pseudo.emitadl.expand = (be4 (adlerResult ch.s1 ch.s2)).map zext32 := by
  simp [Pseudo.expand, chanExec, be4, be4At]

/-! The run of a call. -/

@[simp] theorem presentedOn_length (c : Nat) (is : List Instr) : (presentedOn c is).length = is.length :=
  List.length_map _

/-- Commands presented in a row on one channel: the responses are that channel's answers, and nothing comes between. -/
theorem runTrace_presentedOn (is : List Instr) {s : State} {c : Nat} {ch : Chan} {rest : List Presented}
    (htbl : s.TableOk) (hr : s.resetIn = false) (hc : s.chanAt c = some ch)
    (hp : s.pending = presentedOn c is ++ rest) :
    ∃ t, runTrace is.length s = some ((chanAnswers ch is).map (⟨c, ·⟩), t) ∧ t.pending = rest := by
  induction is generalizing s ch with
  | nil => exact ⟨s, rfl, hp⟩
  | cons i is ih =>
    obtain ⟨t, hstep, htbl', hr', hp', -, hrsp, hown, -⟩ := step_takes_word (p := ⟨c, encode i⟩) htbl hr hp hc
    rw [chanWord_encode] at hrsp hown
    obtain ⟨u, htrace, hrest⟩ := ih htbl' hr' hown hp'
    refine ⟨u, ?_, hrest⟩
    rw [List.length_cons, runTrace_succ hstep, htrace, hrsp, chanAnswers_cons]
    cases (chanExec ch i).2 <;> rfl

/-- Commands whose answers do not depend on the registers before them, on a machine with the invariant. -/
theorem State.Inv.runTrace_call {s : State} {c : Nat} {is : List Instr} {rest : List Presented} {ds : List Word}
    (hs : s.Inv) (hr : s.resetIn = false) (hp : s.pending = presentedOn c is ++ rest)
    (hds : ∀ ch, chanAnswers ch is = ds) :
    ∃ t, runTrace is.length s = some (ds.map (⟨c, ·⟩), t) ∧ t.pending = rest := by
  cases is with
  | nil =>
    cases hds Chan.atReset
    exact ⟨s, rfl, hp⟩
  | cons i is =>
    obtain ⟨ch, hc⟩ := hs.chanAt_of_pending (p := ⟨c, encode i⟩) (hp ▸ List.mem_cons_self)
    obtain ⟨-, -, htbl, -⟩ := hs
    rw [← hds ch]
    exact runTrace_presentedOn (i :: is) htbl hr hc hp

theorem State.Inv.runTrace_whole_call {s : State} {c : Nat} {is : List Instr} {ds : List Word} (hs : s.Inv)
    (hr : s.resetIn = false) (hp : s.pending = presentedOn c is) (hds : ∀ ch, chanAnswers ch is = ds) :
    ∃ t, runTrace s.pending.length s = some (ds.map (⟨c, ·⟩), t) := by
  obtain ⟨t, htrace, -⟩ := hs.runTrace_call hr (hp.trans (List.append_nil _).symm) hds
  exact ⟨t, by rw [hp, presentedOn_length, htrace]⟩

/-- A call that answers bytes with zeros above emits those bytes (30_encoding.md R48). -/
theorem State.Inv.runTrace_emits {s : State} {c : Nat} {is : List Instr} {bytes : List Byte} (hs : s.Inv)
    (hr : s.resetIn = false) (hp : s.pending = presentedOn c is)
    (hbytes : ∀ ch, chanAnswers ch is = bytes.map zext32) :
    ∃ rs t, runTrace s.pending.length s = some (rs, t) ∧ rs.map (·.data.setWidth 8) = bytes := by
  obtain ⟨t, htrace⟩ := hs.runTrace_whole_call hr hp hbytes
  exact ⟨_, t, htrace, by simp [Function.comp_def]⟩

/-! The two checksum calls (R71, R72). -/

/-- Settles O51: one command per byte, and two more where the call presets and reads. -/
theorem expansionLengths : Obligations.ExpansionLengths := fun bs => by simp [Pseudo.expand]

/-- `CRC32` and whatever follows it: the checksum is answered, and its fold stays in the accumulator. -/
theorem chanAnswers_crc32_append (ch : Chan) (bs : List Byte) (is : List Instr) :
    chanAnswers ch ((Pseudo.crc32 bs).expand ++ is) =
      crc32 bs :: chanAnswers { ch with crcAcc := crcFold crcInit bs } is := by
  rw [Pseudo.expand, List.cons_append, List.append_assoc, chanAnswers_cons, chanAnswers_crcfeed]
  rfl

theorem chanAnswers_crc32 (ch : Chan) (bs : List Byte) : chanAnswers ch (Pseudo.crc32 bs).expand = [crc32 bs] := by
  rw [← List.append_nil (Pseudo.expand _), chanAnswers_crc32_append, chanAnswers_nil]

theorem chanAnswers_adler32 (ch : Chan) (bs : List Byte) :
    chanAnswers ch (Pseudo.adler32 bs).expand = [adler32 bs] := by
  rw [Pseudo.expand, chanAnswers_cons, chanAnswers_adlfeed]
  rfl

/-- Settles O44: the call presets the accumulator, so its answer does not depend on the registers before it. -/
theorem crcCallAnswersCrc32 : Obligations.CrcCallAnswersCrc32 := by
  intro s c bs rest hs hr hp
  rw [← (expansionLengths bs).1]
  exact hs.runTrace_call hr hp fun ch => chanAnswers_crc32 ch bs

/-- Settles O47: the call presets the sums, so its answer does not depend on the registers before it. -/
theorem adlerCallAnswersAdler32 : Obligations.AdlerCallAnswersAdler32 := by
  intro s c bs rest hs hr hp
  rw [← (expansionLengths bs).2.1]
  exact hs.runTrace_call hr hp fun ch => chanAnswers_adler32 ch bs

theorem crcFold_append (a : Word) (x y : List Byte) : crcFold a (x ++ y) = crcFold (crcFold a x) y :=
  List.foldl_append

/-- `CRC32` over `x`, then more updates and another read: the second answer covers all bytes (40_crc32.md R56). -/
theorem chanAnswers_crc32_continued (ch : Chan) (x y : List Byte) :
    chanAnswers ch ((Pseudo.crc32 x).expand ++ (Pseudo.crcfeed y).expand ++ [.crcget]) =
      [crc32 x, crc32 (x ++ y)] := by
  rw [List.append_assoc, chanAnswers_crc32_append, Pseudo.expand, chanAnswers_crcfeed, ← crcFold_append]
  rfl

/-- Settles O45: reading leaves the accumulator, and later updates fold on from there. -/
theorem crcCallContinues : Obligations.CrcCallContinues :=
  ⟨crcFold_append, fun _ _ x y hs hr hp => hs.runTrace_whole_call hr hp fun ch => chanAnswers_crc32_continued ch x y⟩

/-! Chunks and images (R76 to R78). -/

theorem chanAnswers_chunkCommands (ch : Chan) (ty : ChunkType) (data : List Byte) :
    chanAnswers ch (chunkCommands ty data) = (be4 (crc32 (chunkCovered ty data))).map zext32 := by
  rw [chunkCommands, chanAnswers_cons, Pseudo.expand, chanAnswers_crcfeed, chanAnswers_emitcrc]
  rfl

theorem chanAnswers_imageCommands (ch : Chan) (rows : List (List Pixel)) :
    chanAnswers ch (imageCommands rows) = (be4 (adler32 (filteredImage rows))).map zext32 := by
  rw [imageCommands, chanAnswers_cons, Pseudo.expand, chanAnswers_adlfeed, chanAnswers_emitadl]
  rfl

/-- Settles O52: the answers are the four bytes of the checksum of what the chunk covers. -/
theorem chunkCommandsEmitChunkCrc : Obligations.ChunkCommandsEmitChunkCrc := fun _ _ ty data hs hr hp =>
  hs.runTrace_emits hr hp fun ch => chanAnswers_chunkCommands ch ty data

/-- The commands of an image, of whatever shape, emit the big-endian Adler-32 of its filtered data. -/
theorem State.Inv.runTrace_imageCommands {s : State} {c : Nat} {rows : List (List Pixel)} (hs : s.Inv)
    (hr : s.resetIn = false) (hp : s.pending = presentedOn c (imageCommands rows)) :
    ∃ rs t, runTrace s.pending.length s = some (rs, t) ∧
      rs.map (·.data.setWidth 8) = be4 (adler32 (filteredImage rows)) :=
  hs.runTrace_emits hr hp fun ch => chanAnswers_imageCommands ch rows

/-- Pieces of one length, joined. -/
theorem length_flatMap_of_length_eq {α β : Type} {f : α → List β} {l : List α} {n : Nat}
    (h : ∀ a ∈ l, (f a).length = n) : (l.flatMap f).length = l.length * n := by
  rw [List.length_flatMap, List.map_congr_left h, List.map_const', List.sum_replicate, smul_eq_mul]

theorem filteredRow_length (row : List Pixel) : (filteredRow row).length = 1 + 3 * row.length := by
  rw [filteredRow, List.length_cons, length_flatMap_of_length_eq (n := 3) fun _ _ => rfl]
  omega

/-- Settles O53: each row is a tag and three bytes per pixel. -/
theorem imageCommandsEmitAdler : Obligations.ImageCommandsEmitAdler := by
  intro s c rows width hs hr hwidth hp
  refine ⟨length_flatMap_of_length_eq fun row hrow => ?_, hs.runTrace_imageCommands hr hp⟩
  rw [filteredRow_length, hwidth row hrow]

/-- Settles O55: what is emitted is the trailer. -/
theorem envelopeEndsWithEmittedAdler : Obligations.EnvelopeEndsWithEmittedAdler := by
  intro s c z hs hr hp
  obtain ⟨rs, t, htrace, hrs⟩ := hs.runTrace_imageCommands hr hp
  refine ⟨rs, t, htrace, ?_, ?_⟩
  · rw [← List.length_map (f := fun r : Response => r.data.setWidth 8), hrs, be4_length]
  · rw [hrs, Chunk.data_idat, ZlibEnvelope.bytes, ZlibEnvelope.trailer]

/-- Settles O54: what is emitted is the CRC-32 of what the chunk's type and data cover. -/
theorem chunkIsWrittenWithEmittedCrc : Obligations.ChunkIsWrittenWithEmittedCrc := by
  intro s c k hs hr hp
  obtain ⟨rs, t, htrace, hrs⟩ := hs.runTrace_emits hr hp fun ch => chanAnswers_chunkCommands ch k.type k.data
  refine ⟨⟨rs, t, htrace, by rw [hrs]; rfl⟩, fun hk => ?_, fun z hz => ?_, fun hk => ?_⟩
  · cases k with
    | ihdr fields => rw [Chunk.covered, chunkCovered_length, Chunk.data_ihdr, Vector.length_toList]
    | idat | iend => cases hk
  · subst hz
    rfl
  · cases k with
    | iend => rfl
    | ihdr | idat => cases hk

end Sys2Proof.Machine

/-! The assembler reads what `render` writes (30_encoding.md R46): the channel, the mnemonic, one number. -/

namespace Sys2Proof.Machine

open Sys2Proof

/-! Numbers. -/

theorem hexValue_hexChar : ∀ n : Fin 16, hexValue (hexChar n) = some n.val := by decide

theorem decValue_hexChar : ∀ n : Fin 10, decValue (hexChar n) = some n.val := by decide

/-- The two digits of a byte, and no character of the text more. -/
theorem operandAt_hexByte (b : Byte) : operandAt (hexByte b) = some (.num b.toNat, []) := by
  have hhi : hexValue (hexChar (b.toNat / 16)) = some (b.toNat / 16) :=
    hexValue_hexChar ⟨b.toNat / 16, by omega⟩
  have hlo : hexValue (hexChar (b.toNat % 16)) = some (b.toNat % 16) :=
    hexValue_hexChar ⟨b.toNat % 16, by omega⟩
  have hb : b.toNat / 16 * 16 + b.toNat % 16 = b.toNat := by omega
  simp [hexByte, operandAt, hhi, hlo, digits, hb]

theorem operandAt_sel : ∀ k : Sel, operandAt [hexChar k.toNat] = some (.num k.toNat, []) := by decide

/-- One operand after a space, to the end of the line. -/
theorem operandsAt_of_operandAt {o : AsmOperand} {c : Char} {cs : List Char} (hc : c ≠ ' ')
    (h : operandAt (c :: cs) = some (o, [])) (n : Nat) : operandsAt (n + 1) (' ' :: c :: cs) = some [o] := by
  simp [operandsAt, skipSpaces, hc, h, atEnd]

theorem byteOperand_num (a : Bool) (b : Byte) : byteOperand a [.num b.toNat] = some b := by
  simp [byteOperand, b.isLt]

theorem selOperand_num (k : Sel) : selOperand [.num k.toNat] = some k := by
  simp [selOperand, k.isLt]

/-! A line. -/

theorem operandsAt_hexByte (b : Byte) (n : Nat) : operandsAt (n + 1) (' ' :: hexByte b) = some [.num b.toNat] :=
  operandsAt_of_operandAt (by decide) (operandAt_hexByte b) n

theorem operandsAt_sel (k : Sel) (n : Nat) : operandsAt (n + 1) [' ', hexChar k.toNat] = some [.num k.toNat] :=
  operandsAt_of_operandAt (by revert k; decide) (operandAt_sel k) n

theorem atEnd_hexChar_sel : ∀ k : Sel, atEnd (skipSpaces [' ', hexChar k.toNat]) = false := by decide

/-- A line that is, after its channel, a mnemonic, a space and operands to the end of the line. -/
theorem assembleLine_of_operands {line text m arg : List Char} {c : Nat} {os : List AsmOperand} {ws : List Cmd}
    (hchan : channelPrefix (skipSpaces line) = some (c, text)) (htext : skipSpaces text = m ++ ' ' :: arg)
    (hm : m.all mnemonicChar = true) (hstart : atEnd (m ++ ' ' :: arg) = false)
    (harg : atEnd (skipSpaces (' ' :: arg)) = false) (hos : operandsAt (arg.length + 1) (' ' :: arg) = some os)
    (hws : wordsOf m os = some ws) : assembleLine line = some (c, ws) := by
  have hspace : mnemonicChar ' ' = false := by decide
  have hmnemonic : (m ++ ' ' :: arg).takeWhile mnemonicChar = m := by
    simp [List.takeWhile_append_of_pos (List.all_eq_true.1 hm), hspace]
  have hrest : (m ++ ' ' :: arg).dropWhile mnemonicChar = ' ' :: arg := by
    simp [List.dropWhile_append_of_pos (List.all_eq_true.1 hm), hspace]
  simp [assembleLine, hchan, htext, hstart, hmnemonic, hrest, harg, hos, hws]

/-- After the channel, a command as rendered is its one word. -/
theorem assembleLine_of_render {line text : List Char} {c : Nat} {i : Instr}
    (hchan : channelPrefix (skipSpaces line) = some (c, text)) (htext : skipSpaces text = render i) :
    assembleLine line = some (c, [encode i]) := by
  cases i with
  | nop | statrd | crcinit | crcget | adlinit | adlget =>
    simp only [assembleLine, hchan, htext]
    rfl
  | crcupd b =>
    exact assembleLine_of_operands (m := "CRCUPD".toList) hchan htext rfl rfl rfl
      (operandsAt_hexByte b _) (by simp [wordsOf, byteOperand_num])
  | tblrd v =>
    exact assembleLine_of_operands (m := "TBLRD".toList) hchan htext rfl rfl rfl
      (operandsAt_hexByte v _) (by simp [wordsOf, byteOperand_num])
  | adlupd b =>
    exact assembleLine_of_operands (m := "ADLUPD".toList) hchan htext rfl rfl rfl
      (operandsAt_hexByte b _) (by simp [wordsOf, byteOperand_num])
  | crcgetb k =>
    exact assembleLine_of_operands (m := "CRCGETB".toList) hchan htext rfl rfl (atEnd_hexChar_sel k)
      (operandsAt_sel k _) (by simp [wordsOf, selOperand_num])
  | adlgetb k =>
    exact assembleLine_of_operands (m := "ADLGETB".toList) hchan htext rfl rfl (atEnd_hexChar_sel k)
      (operandsAt_sel k _) (by simp [wordsOf, selOperand_num])

theorem channelPrefix_digit (d : Fin 10) (cs : List Char) :
    channelPrefix ('c' :: 'h' :: hexChar d :: ':' :: cs) = some (d.val, cs) := by
  have hcolon : decValue ':' = none := by decide
  simp [channelPrefix, decValue_hexChar, digits, hcolon]

/-- Settles O50: with and without a channel named, the rest of the line is the command as rendered. -/
theorem renderedCommandAssembles : Obligations.RenderedCommandAssembles := by
  intro i d
  have hrender : skipSpaces (render i) = render i := by cases i <;> rfl
  refine ⟨assembleLine_of_render ?_ hrender, assembleLine_of_render (channelPrefix_digit d _) hrender⟩
  rw [hrender]
  cases i <;> rfl

end Sys2Proof.Machine
